-- ==== Sys2Proof/Word.lean ====
section
/-! DEFINITION. The words of the block: 32-bit registers and bus data (R7, R22), 8-bit bytes (R9), 6-bit sextets (R12), the
24-bit packing group (R7) and the 18-bit block offset (R50). -/

namespace Sys2Proof

/-- A register or a bus data word: 32 bits (R7, R22). -/
abbrev Word := BitVec 32

/-- A byte, an octet (R9, R12). -/
abbrev Byte := BitVec 8

/-- A sextet: a 6-bit value, the unit a Base64 symbol encodes (R12). -/
abbrev Sextet := BitVec 6

/-- The packing group: 3 bytes, or 4 sextets, as one 24-bit value (R7, R115). -/
abbrev Group := BitVec 24

/-- A block offset: 2^18 of them, 0x00000 to 0x3FFFF (R50). -/
abbrev Offset := BitVec 18

end Sys2Proof
end

