-- ==== Sys2Proof/Config.lean ====
section
/-! DEFINITION. The parameters of the block (R7) and the free values: what the spec leaves open and the machine goes on with
(R10 `draw`, 93_implementation_defined.md U1 to U3, U5). A free value is an opaque constant of the number of the draw, so no
proof can lean on what it is. -/

namespace Sys2Proof

/-- The capacities of the two buffers, in bytes (R7). The spec fixes neither; they stand in State, so that a statement
about every state holds for every block. -/
structure Params where
  inCap  : Nat
  outCap : Nat
  deriving DecidableEq, Repr

namespace Config

/-- DESIGN CHOICE (log 1): the capacities of the block that `State.reset` describes, those of the spec's test vectors
(95_test_vectors.md). No statement about every state depends on them. -/
def params : Params := { inCap := 256, outCap := 256 }

/-- Free: the byte at one index, of one draw (R28, R29, R61, R161). -/
opaque freeByte : Nat → Nat → Byte

/-- Free: whether DECODE_FAST outside its precondition ends in OK; otherwise it ends in NoMemory (R161). -/
opaque freeOk : Nat → Bool

/-- Free: the number from which DECODE_FAST outside its precondition takes OUT_LEN (R161). -/
opaque freeLen : Nat → Nat

/-- Free: how many host steps fall between the start of a command and its completion, where `State.latencies` lists
none (LATENCY, R7, R200). -/
opaque freeLatency : Nat → Nat

end Config

end Sys2Proof
end

