-- ==== Sys2Proof/Machine/State.lean ====
section
/-! DEFINITION. The state of the block, as plain data: the tuple of R40, the block's parameters, the level of its reset input,
the host agent's own state (R96), and the model's own fields for latency and free values. -/

namespace Sys2Proof.Machine

/-- The result codes the block can record (R171). Codes 6 and 7 are never written, so there is none (U10). -/
inductive Code where
  | ok
  | inputDataEmpty
  | base64StringEmpty
  | noMemory
  | base64EncodingInvalid
  | unknownError
  deriving DecidableEq, Repr

/-- The latched command CUR, hidden state (R35). -/
structure Cur where
  op : BitVec 2
  w  : Bool
  a  : Bool
  deriving DecidableEq, Repr

/-- Bytes by index, in one canonical form (`Memory.wf`): indexes strictly rising, one entry for each byte that has been
written. An index not listed holds no written byte. -/
abbrev Memory := List Host.Cell

/-- A buffer: the bytes written into it, and the number of the draw that gives every byte nothing has written, which is
"a value fixed at reset and stable until the host writes it" (R28, R29, log 2). -/
structure Buffer where
  fill  : Nat
  cells : Memory
  deriving DecidableEq, Repr

/-- The width of a bus transaction: 1, 2 or 4 bytes (R53). -/
inductive Width where
  | byte
  | half
  | word
  deriving DecidableEq, Repr

/-- The response of a bus transaction (R53). -/
inductive Resp where
  | okay
  | error
  deriving DecidableEq, Repr

/-- The value operand of a host store: a number, or a host-side variable (R96; program P4 stores a variable). -/
inductive Operand where
  | imm (v : Word)
  | var (r : Nat)
  deriving DecidableEq, Repr

/-- One step of the host's script (R96), or a change of the level of the reset input (R190). -/
inductive HostOp where
  /-- STB, STH, STW: `MemWrite(off, n, v)`. -/
  | store (n : Width) (off : Offset) (v : Operand)
  /-- LDB, LDH, LDW: `r <- MemRead(off, n).data`. -/
  | load (n : Width) (off : Offset) (r : Nat)
  /-- BNZ: go to `label` if `(r & mask) != 0`; no bus transaction. A label is an index into the script. -/
  | bnz (r : Nat) (mask : Word) (label : Nat)
  /-- READOUT: `LDW 0x00C -> len`, then as many byte loads as that load returned, byte `i` into the variable `o + i` (R97,
  log 14). -/
  | readOut (len o : Nat)
  /-- The reset input is asserted (R190, R191). -/
  | assertReset
  /-- The reset input is released (R190, R192). -/
  | releaseReset
  deriving DecidableEq, Repr

/-- The host agent's own state: "host state, not block state" (R96). `pending` holds the steps of a READOUT's expansion still
to come, which the host makes before it goes on at `pos` (R97). `resp` is the response and data of its last bus transaction. -/
structure HostState where
  prog    : List HostOp
  pos     : Nat
  pending : List HostOp
  vars    : List (Nat × Word)
  resp    : Option (Resp × Word)
  deriving DecidableEq, Repr

/-- The faults that stop the machine: there is none. "The block never traps, never raises an exception, never stops for
good and never needs a handler" (R170); a bus ERROR is a response, and the machine goes on (R185). Log 21. -/
inductive Fault where
  deriving DecidableEq, Repr

/-- Why a step has no meaning. -/
inductive Refusal where
  /-- Raised by no arm of `exec` (every command has its meaning). Safe: it would only stop a run. -/
  | notModelled (mnemonic : String)
  /-- Raised by `hostStep` for a bus transaction while the reset input is asserted: "Host transactions issued while reset is
  asserted are outside the model" (R192); "A model offers no transition for them" (U7). Safe: it only stops a run. -/
  | transactionInReset
  deriving DecidableEq, Repr

/-- The state of the block and of its surroundings. The fields `busy` to `outBuf` are the tuple of R40. -/
structure State where
  /-- IN_CAP and OUT_CAP, constants of the block (R7), which INCAP and OUTCAP read (R33). -/
  params    : Params
  /-- STATUS.BUSY (R25). -/
  busy      : Bool
  /-- STATUS.DONE (R26). -/
  done      : Bool
  /-- STATUS.IGN (R27). -/
  ign       : Bool
  /-- IN_LEN (R30). -/
  inLen     : Word
  /-- OUT_LEN (R31). -/
  outLen    : Word
  /-- RESULT (R32). -/
  result    : Code
  /-- The latched command CUR (R35). -/
  cur       : Cur
  /-- IN_BUF, indexed 0..IN_CAP-1 (R28). -/
  inBuf     : Buffer
  /-- OUT_BUF, indexed 0..OUT_CAP-1 (R29). -/
  outBuf    : Buffer
  /-- The level of the reset input: true while it is asserted (R190). -/
  rst       : Bool
  /-- The model's own: how many host steps still fit before the running command completes (LATENCY, R7; log 5). -/
  slack     : Nat
  /-- The model's own: the slack of the next commands, as the environment supplies it; log 5. -/
  latencies : List Nat
  /-- The model's own: how many free values have been drawn (R10 `draw`; log 7). -/
  draws     : Nat
  /-- The host agent (R6, R96). -/
  host      : HostState
  deriving DecidableEq, Repr

/-- A block with the given parameters right after reset (R190): idle, no command completed, the lengths and RESULT 0, the
buffers' bytes unspecified. CUR is unspecified and unread; DESIGN CHOICE (log 3): zeros. The host has no script. -/
def State.resetWith (p : Params) : State where
  params    := p
  busy      := false
  done      := false
  ign       := false
  inLen     := 0
  outLen    := 0
  result    := .ok
  cur       := { op := 0, w := false, a := false }
  inBuf     := { fill := 0, cells := [] }
  outBuf    := { fill := 1, cells := [] }
  rst       := false
  slack     := 0
  latencies := []
  draws     := 2
  host      := { prog := [], pos := 0, pending := [], vars := [], resp := none }

/-- The machine right after reset, with the capacities of `Config.params` (log 1). -/
def State.reset : State := State.resetWith Config.params

end Sys2Proof.Machine
end

