-- ==== Sys2Proof/Syntax.lean ====
section
/-! DEFINITION. The commands of the block: one constructor per row of the opcode table (R80, R81, R85). -/

namespace Sys2Proof

/-- A command as the block decodes it from a CMD32 word: the operation, and the two one-bit fields W and A that every
word carries (R80). `wrap` is W, which only ENCODE reads (R83); `absent` is A, "input absent" (R82). The bits 31:4 have no
effect (R84) and are no part of a command. -/
inductive Instr where
  /-- OP = 0b00: bytes to Base64 text (R110). -/
  | encode (wrap absent : Bool)
  /-- OP = 0b01: the standard, validating decoder (R130). -/
  | decode (wrap absent : Bool)
  /-- OP = 0b10: the trusting decoder (R150). -/
  | decodeFast (wrap absent : Bool)
  /-- OP = 0b11: reserved, completes with UnknownError (R85). -/
  | reserved (wrap absent : Bool)
  deriving DecidableEq, Repr

end Sys2Proof
end

