-- ==== Sys2Proof/WellFormed.lean ====
section
/-! DEFINITION. What is well-formed: the commands (all of them), the block's parameters (R7) and the host's script (R53, R96). -/

namespace Sys2Proof

/-- Every command is well-formed: "every 32-bit value written to CMD selects exactly one" operation (R86), and each takes W
and A at both values (R80 to R85). -/
def Instr.wf : Instr → Bool
  | .encode _ _ => true
  | .decode _ _ => true
  | .decodeFast _ _ => true
  | .reserved _ _ => true

/-- The legal capacities: 1 <= IN_CAP <= 65536 and 1 <= OUT_CAP <= 65536 (R7). -/
def Params.wf (p : Params) : Bool :=
  decide (1 ≤ p.inCap) && decide (p.inCap ≤ 65536) && decide (1 ≤ p.outCap) && decide (p.outCap ≤ 65536)

namespace Machine

/-- The bits of a value of `n` bytes (R53). -/
def Width.bits : Width → Nat
  | .byte => 8
  | .half => 16
  | .word => 32

/-- The written value is an `8n`-bit value (R53). A host-side variable is stored by its low `8n` bits (log 22). -/
def Operand.wf (n : Width) : Operand → Bool
  | .imm v => decide (v.toNat < 2 ^ n.bits)
  | .var _ => true

/-- A host step is well-formed in a script of `len` steps: a stored number fits the transaction (R53), and a branch goes to a
step of the script or just past its end (R96), and the variables `o + i` of a READOUT lie clear of its `len` (log 14). -/
def HostOp.wf (len : Nat) : HostOp → Bool
  | .store n _ v => v.wf n
  | .load _ _ _ => true
  | .bnz _ _ label => decide (label ≤ len)
  | .readOut len o => decide (len < o)
  | .assertReset => true
  | .releaseReset => true

/-- A host script is well-formed when each of its steps is. -/
def scriptWf (prog : List HostOp) : Bool := prog.all (HostOp.wf prog.length)

end Machine

end Sys2Proof
end

