-- ==== Sys2Proof/Decode.lean ====
section
/-! DEFINITION. The decoder of command words (R80 to R86), total on any bytes, and after it the encoder written from the same
layout. -/

namespace Sys2Proof

/-! ## Fields of a command word (R80, R23) -/

/-- `OP = w[1:0]` (R23, R80). -/
def cmdOp (w : Word) : BitVec 2 := w.extractLsb' 0 2

/-- `W = w[2]` (R23, R80). -/
def cmdWrap (w : Word) : Bool := w.getLsbD 2

/-- `A = w[3]` (R23, R80). -/
def cmdAbsent (w : Word) : Bool := w.getLsbD 3

/-- Bits 31:4, which have no effect (R84). -/
def cmdIgnored (w : Word) : BitVec 28 := w.extractLsb' 4 28

/-! ## The decoder -/

/-- The command that the fields OP, W and A select (R81): OP alone picks the operation (R86). -/
def decodeFields (op : BitVec 2) (wrap absent : Bool) : Instr :=
  if op = 0b00#2 then .encode wrap absent
  else if op = 0b01#2 then .decode wrap absent
  else if op = 0b10#2 then .decodeFast wrap absent
  else .reserved wrap absent

/-- The command of a 32-bit word written to CMD. Every word decodes: "Decoding is total" (R86). -/
def decodeWord (w : Word) : Instr := decodeFields (cmdOp w) (cmdWrap w) (cmdAbsent w)

/-- Why a string of bytes is no command. -/
inductive DecodeError where
  /-- Fewer than the 4 bytes of a command word: R80 gives no other length. -/
  | short (bytes : Nat)
  deriving DecidableEq, Repr

/-- The command at the head of a byte string and what follows it. A command is one 32-bit word (R80), laid out least
significant byte first (DEDUCED, log 15: R55's order; CMD itself takes only whole words, R54). -/
def decode : List Byte → Except DecodeError (Instr × List Byte)
  | b0 :: b1 :: b2 :: b3 :: rest => .ok (decodeWord (b3 ++ b2 ++ b1 ++ b0), rest)
  | bs => .error (.short bs.length)

/-! ## The encoder -/

namespace Instr

/-- The OP field of a command (R81). -/
def op : Instr → BitVec 2
  | .encode _ _ => 0b00#2
  | .decode _ _ => 0b01#2
  | .decodeFast _ _ => 0b10#2
  | .reserved _ _ => 0b11#2

/-- The W field of a command (R80). -/
def wrap : Instr → Bool
  | .encode w _ | .decode w _ | .decodeFast w _ | .reserved w _ => w

/-- The A field of a command (R80). -/
def absent : Instr → Bool
  | .encode _ a | .decode _ a | .decodeFast _ a | .reserved _ a => a

end Instr

/-- The command word of `i` with `ignored` in bits 31:4: the pattern `x…xAWoo` of R80. -/
def encodeWith (ignored : BitVec 28) (i : Instr) : Word :=
  ignored ++ BitVec.ofBool i.absent ++ BitVec.ofBool i.wrap ++ i.op

/-- The command word of `i`, with bits 31:4 zero, as software should write them (R84). -/
def encode (i : Instr) : Word := encodeWith 0 i

/-- The four bytes of a word, least significant first (log 15). -/
def wordBytes (w : Word) : List Byte :=
  [w.extractLsb' 0 8, w.extractLsb' 8 8, w.extractLsb' 16 8, w.extractLsb' 24 8]

/-- The bytes of the command word of `i`. -/
def encodeBytes (i : Instr) : List Byte := wordBytes (encode i)

/-! ## The opcode table (R86) -/

/-- A row of the opcode table: a word `w` is of this row when `w &&& mask = fixed`. -/
structure OpcodeRow where
  mnemonic : String
  fixed    : Word
  mask     : Word
  deriving DecidableEq, Repr

/-- The rows, with the match and mask of R86. -/
def opcodeTable : List OpcodeRow :=
  [⟨"ENCODE", 0x0, 0x3⟩, ⟨"DECODE", 0x1, 0x3⟩, ⟨"DECODE_FAST", 0x2, 0x3⟩, ⟨"RESERVED", 0x3, 0x3⟩]

/-- The mnemonic of a command's row. -/
def Instr.mnemonic : Instr → String
  | .encode _ _ => "ENCODE"
  | .decode _ _ => "DECODE"
  | .decodeFast _ _ => "DECODE_FAST"
  | .reserved _ _ => "RESERVED"

/-- The command the decoder reads from an instruction of `nbits` bits with value `w`; the bits above `nbits` are 0. -/
def decodeTableWord (nbits w : Nat) : Option Instr :=
  if nbits ≤ 32 then
    match decode (wordBytes (BitVec.ofNat 32 (w % 2 ^ nbits))) with
    | .ok (i, _) => some i
    | .error _ => none
  else none

end Sys2Proof
end

