-- ==== Sys2Proof/Machine/Ops.lean ====
section
/-! DEFINITION. The named operations over buffers and registers: reading and writing bytes, the start of a command (R175), its
completion (R176), the free values a completion may draw (R161), and reset (R190). -/

namespace Sys2Proof.Machine

/-! ## Cells: a list of (key, value) pairs, keys strictly rising -/

/-- The value listed under a key. -/
def cellsRead {α : Type} : List (Nat × α) → Nat → Option α
  | [], _ => none
  | (k, v) :: m, a => if k = a then some v else cellsRead m a

/-- List `v` under the key `a`, in its place. -/
def cellsWrite {α : Type} : List (Nat × α) → Nat → α → List (Nat × α)
  | [], a, v => [(a, v)]
  | (k, u) :: m, a, v =>
    if a < k then (a, v) :: (k, u) :: m
    else if a = k then (a, v) :: m
    else (k, u) :: cellsWrite m a v

/-- The canonical form: keys strictly rising. -/
abbrev cellsWf {α : Type} (m : List (Nat × α)) : Prop := (m.map Prod.fst).Pairwise (· < ·)

/-- The canonical form of memory. A byte that nothing has written is not listed and has no listed value (log 2). -/
abbrev Memory.wf (m : Memory) : Prop := cellsWf m

/-- Write bytes one after another from an index on. -/
def Memory.writeAll : Memory → Nat → List Byte → Memory
  | m, _, [] => m
  | m, i, b :: bs => Memory.writeAll (cellsWrite m i b) (i + 1) bs

/-! ## Buffers (R28, R29) -/

/-- The byte at an index: the byte written last, or else the free value fixed when the buffer was filled (log 2). -/
def Buffer.read (b : Buffer) (i : Nat) : Byte := (cellsRead b.cells i).getD (Config.freeByte b.fill i)

/-- Write bytes from an index on. -/
def Buffer.writeAll (b : Buffer) (i : Nat) (bs : List Byte) : Buffer :=
  { b with cells := Memory.writeAll b.cells i bs }

/-- `In(i)` (R10). -/
def State.inByte (s : State) (i : Nat) : Byte := s.inBuf.read i

/-- `Out(i)` (R10). -/
def State.outByte (s : State) (i : Nat) : Byte := s.outBuf.read i

/-- The input of a command, `In(0) .. In(n-1)` (R30, R94). -/
def State.inBytes (s : State) (n : Nat) : List Byte := (List.range n).map s.inByte

/-- The output a command has left, `Out(0) .. Out(n-1)` (R29). -/
def State.outBytes (s : State) (n : Nat) : List Byte := (List.range n).map s.outByte

/-! ## Start (R175) -/

/-- The fields of a command word that CUR latches (R35, R175). -/
def latch (w : Word) : Cur := { op := cmdOp w, w := cmdWrap w, a := cmdAbsent w }

/-- How many host steps fit before the completion of the command being started: the next number the environment supplies, or
else a free value (LATENCY, R7, R200; log 5). -/
def State.nextLatency (s : State) : Nat := s.latencies.headD (Config.freeLatency s.draws)

/-- A CMD write that starts a command: CUR latched, BUSY set, DONE cleared, nothing else (R175). `slack`, `latencies` and `draws` are
the model's own (log 5). -/
def State.start (s : State) (w : Word) : State :=
  { s with
    cur       := latch w
    busy      := true
    done      := false
    slack     := s.nextLatency
    latencies := s.latencies.tail
    draws     := if s.latencies.isEmpty then s.draws + 1 else s.draws }

/-- The command that CUR holds (R35, R81). -/
def Cur.instr (c : Cur) : Instr := decodeFields c.op c.w c.a

/-! ## Completion (R176) -/

/-- The end of a command, one atomic step (R176): on OK the first `len` computed bytes go to `Out(0) .. Out(len-1)` and `len` to
OUT_LEN; on any other code OUT_BUF keeps its bytes (R177) and OUT_LEN is 0. RESULT takes the code, BUSY is cleared and DONE
set. -/
def State.finish (s : State) (code : Code) (len : Nat) (bytes : List Byte) : State :=
  { s with
    outBuf := if code = .ok then s.outBuf.writeAll 0 (bytes.take len) else s.outBuf
    result := code
    outLen := if code = .ok then BitVec.ofNat 32 len else 0
    busy   := false
    done   := true
    slack  := 0 }

/-- The end of a DECODE_FAST whose input does not meet FastPre (R161): the code is drawn from OK and NoMemory; on OK, OUT_LEN
is drawn from 0..OUT_CAP and every OUT_BUF byte is a draw (the buffer lists nothing and its fill is this draw; log 8). -/
def State.finishDraw (s : State) : State :=
  if Config.freeOk s.draws then
    { s with
      outBuf := { fill := s.draws, cells := [] }
      result := .ok
      outLen := BitVec.ofNat 32 (Config.freeLen s.draws % (s.params.outCap + 1))
      busy   := false
      done   := true
      slack  := 0
      draws  := s.draws + 1 }
  else { s.finish .noMemory 0 [] with draws := s.draws + 1 }

/-- What the evaluation of a command ends in (R11, R176): `finish(code, len)` with the computed bytes, or the draw of R161. -/
inductive Completion where
  | finish (code : Code) (len : Nat) (bytes : List Byte)
  | draw
  deriving DecidableEq, Repr

/-- The state after a completion (R176). -/
def State.complete (s : State) : Completion → State
  | .finish code len bytes => s.finish code len bytes
  | .draw => s.finishDraw

/-- The checks every command makes before its own, in the order of R172 steps 2 to 4: A = 1 gives the absent-input code of the
operation; IN_LEN > IN_CAP gives UnknownError (R173); IN_LEN = 0 gives OK with nothing. Else the operation `op` is evaluated on
OUT_CAP and the input bytes. -/
def State.checked (s : State) (absent : Bool) (absentCode : Code) (op : Nat → List Byte → Completion) : Completion :=
  if absent then .finish absentCode 0 []
  else if s.params.inCap < s.inLen.toNat then .finish .unknownError 0 []
  else if s.inLen.toNat = 0 then .finish .ok 0 []
  else op s.params.outCap (s.inBytes s.inLen.toNat)

/-- The last check of every operation (R172 steps 7 and 8): a required output length above OUT_CAP gives NoMemory (R174), else OK
with the bytes. -/
def fitted (outCap len : Nat) (bytes : List Byte) : Completion :=
  if outCap < len then .finish .noMemory 0 [] else .finish .ok len bytes

/-! ## Reset (R190) -/

/-- The reset input at the given level: every piece of the block's state takes its reset value, a running command is abandoned
(R191), and every byte of both buffers becomes unspecified anew (R28, R29). The parameters do not change (R33). The host's
script goes on: it is no state of the block (R96). -/
def State.resetBlock (s : State) (level : Bool) : State :=
  { s with
    busy   := false
    done   := false
    ign    := false
    inLen  := 0
    outLen := 0
    result := .ok
    cur    := { op := 0, w := false, a := false }
    inBuf  := { fill := s.draws, cells := [] }
    outBuf := { fill := s.draws + 1, cells := [] }
    rst    := level
    slack  := 0
    draws  := s.draws + 2 }

end Sys2Proof.Machine
end

