-- ==== Sys2Proof/Machine/Flags.lean ====
section
/-! DEFINITION. The flags: the STATUS word (R24), its write-1-to-clear bit (R27), and the numbers of the result codes (R171). -/

namespace Sys2Proof.Machine

/-- The numeric value of a result code (R171). -/
def Code.toNat : Code → Nat
  | .ok => 0
  | .inputDataEmpty => 1
  | .base64StringEmpty => 2
  | .noMemory => 3
  | .base64EncodingInvalid => 4
  | .unknownError => 5

/-- What RESULT reads: the code in bits 2:0, the rest 0 (R32). -/
def State.resultWord (s : State) : Word := BitVec.ofNat 32 s.result.toNat

/-- What STATUS reads: BUSY in bit 0, DONE in bit 1, IGN in bit 2, the rest 0 (R24). -/
def State.statusWord (s : State) : Word :=
  (0 : BitVec 29) ++ BitVec.ofBool s.ign ++ BitVec.ofBool s.done ++ BitVec.ofBool s.busy

/-- A host write to STATUS: bit 2 = 1 clears IGN, every other bit is ignored; accepted whether BUSY is 0 or 1 (R24, R27). -/
def State.writeStatus (s : State) (v : Word) : State :=
  if v.getLsbD 2 then { s with ign := false } else s

/-- A host write that is dropped because BUSY = 1: its only effect is IGN <- 1 (R27, R60). -/
def State.dropWrite (s : State) : State := { s with ign := true }

end Sys2Proof.Machine
end

