-- ==== Sys2Proof/Machine/Operands.lean ====
section
/-! DEFINITION. The operand forms of bus transactions: regions and legality (R51, R54), and multi-byte values in little-endian
order (R55). -/

namespace Sys2Proof.Machine

/-- The four regions of the offset map (R51). -/
inductive Region where
  | regs
  | inWindow
  | outWindow
  | top
  deriving DecidableEq, Repr

/-- The region of an offset (R51). -/
def region (off : Offset) : Region :=
  if off.toNat < 0x10000 then .regs
  else if off.toNat < 0x20000 then .inWindow
  else if off.toNat < 0x30000 then .outWindow
  else .top

/-- The place of an offset inside its region: the register offset, or the buffer index `i` of R51. -/
def place (off : Offset) : Nat := off.toNat % 0x10000

/-- The bytes of a transaction (R53). -/
def Width.bytes : Width → Nat
  | .byte => 1
  | .half => 2
  | .word => 4

/-- Whether a transaction is legal: in the register region 4 bytes and aligned by 4, elsewhere naturally aligned (R54). -/
def legal (off : Offset) (n : Width) : Bool :=
  match region off with
  | .regs => n == .word && off.toNat % 4 == 0
  | _ => off.toNat % n.bytes == 0

/-- `sum over k of (byte k << 8k)`: the value of a string of bytes in little-endian order (R55). -/
def leWord : List Byte → Word
  | [] => 0
  | b :: bs => b.setWidth 32 ||| (leWord bs <<< 8)

/-- `v[8k+7:8k]` for k < n: the bytes of a written value (R55). -/
def leBytes (n : Width) (v : Word) : List Byte :=
  (List.range n.bytes).map fun k => v.extractLsb' (8 * k) 8

/-! ## The host's script and variables (R96, R97) -/

/-- The host's next step: the first pending one, or else the one its place in the script names. -/
def HostState.nextOp (h : HostState) : Option HostOp :=
  match h.pending with
  | op :: _ => some op
  | [] => h.prog[h.pos]?

/-- The host goes on: past the first pending step, or else past its place in the script. -/
def HostState.advance (h : HostState) : HostState :=
  { h with pos := if h.pending = [] then h.pos + 1 else h.pos, pending := h.pending.tail }

/-- The host-side variable `r` (R96). DESIGN CHOICE (log 12): one never written reads 0. -/
def HostState.getVar (h : HostState) (r : Nat) : Word := (cellsRead h.vars r).getD 0

/-- `r <- v` for a host-side variable (R96). -/
def HostState.setVar (h : HostState) (r : Nat) (v : Word) : HostState :=
  { h with vars := cellsWrite h.vars r v }

/-- The value of a store's operand (R96). -/
def HostState.operand (h : HostState) : Operand → Word
  | .imm v => v
  | .var r => h.getVar r

end Sys2Proof.Machine
end

