-- ==== Sys2Proof/Machine/Bus.lean ====
section
/-! DEFINITION. The host bus port: MemRead and MemWrite (R53) on registers (R22 to R34) and buffer windows (R55 to R61). -/

namespace Sys2Proof.Machine

/-! ## Reads -/

/-- The value a register offset reads (R22): CMD reads 0 (R23), the reserved offsets read 0 (R34). -/
def State.readReg (s : State) (off : Nat) : Word :=
  if off = 0x004 then s.statusWord
  else if off = 0x008 then s.inLen
  else if off = 0x00C then s.outLen
  else if off = 0x010 then s.resultWord
  else if off = 0x014 then BitVec.ofNat 32 s.params.inCap
  else if off = 0x018 then BitVec.ofNat 32 s.params.outCap
  else 0

/-- The byte at index `j` of the IN_BUF window: In(j) below IN_CAP, 0 beyond (R55). -/
def State.inWindowByte (s : State) (j : Nat) : Byte := if j < s.params.inCap then s.inByte j else 0

/-- The byte at index `j` of the OUT_BUF window: Out(j) below OUT_CAP, 0 beyond (R55); while BUSY = 1 a byte below OUT_CAP is a
draw, separate for each byte and each read (R61). -/
def State.outWindowByte (s : State) (j : Nat) : Byte :=
  if j < s.params.outCap then
    if s.busy then Config.freeByte s.draws j else s.outByte j
  else 0

/-- The byte at index `j` of a region other than the registers (R51). -/
def State.windowByte (s : State) (r : Region) (j : Nat) : Byte :=
  match r with
  | .regs => 0
  | .inWindow => s.inWindowByte j
  | .outWindow => s.outWindowByte j
  | .top => 0

/-- The data of a legal read (R55, R56, R61). -/
def State.readData (s : State) (off : Offset) (n : Width) : Word :=
  match region off with
  | .regs => s.readReg (place off)
  | r => leWord ((List.range n.bytes).map fun k => s.windowByte r (place off + k))

/-- Whether a read takes a draw: it is a legal read of the OUT_BUF window while BUSY = 1 (R61). -/
def State.readDraws (s : State) (off : Offset) (n : Width) : Bool :=
  legal off n && region off == .outWindow && s.busy

/-- `MemRead(addr, n)`: an illegal one answers ERROR with data 0 (R53, R54, R185). -/
def State.busRead (s : State) (off : Offset) (n : Width) : Resp × Word :=
  if legal off n then (.okay, s.readData off n) else (.error, 0)

/-- The state after a read: no read has a side effect (R58); the counter of draws, the model's own, moves on when the read took
a draw (log 9). -/
def State.afterRead (s : State) (off : Offset) (n : Width) : State :=
  if s.readDraws off n then { s with draws := s.draws + 1 } else s

/-! ## Writes -/

/-- A host write to CMD: starts a command while idle (R175), is dropped while BUSY = 1 (R60). -/
def State.writeCmd (s : State) (v : Word) : State := if s.busy then s.dropWrite else s.start v

/-- A host write to IN_LEN: all 32 bits, no clamping (R30); dropped while BUSY = 1 (R60). -/
def State.writeInLen (s : State) (v : Word) : State := if s.busy then s.dropWrite else { s with inLen := v }

/-- A write to a register offset (R22): OUT_LEN, RESULT, INCAP, OUTCAP and the reserved offsets ignore it (R31 to R34). -/
def State.writeReg (s : State) (off : Nat) (v : Word) : State :=
  if off = 0x000 then s.writeCmd v
  else if off = 0x004 then s.writeStatus v
  else if off = 0x008 then s.writeInLen v
  else s

/-- A write of bytes to the IN_BUF window from index `i` on: bytes at or beyond IN_CAP are dropped (R55). While BUSY = 1 the
bytes below IN_CAP are dropped too, and IGN is set if there is one (R60; `i` is the lowest index, log 24). -/
def State.writeInWindow (s : State) (i : Nat) (bs : List Byte) : State :=
  if s.busy then (if i < s.params.inCap then s.dropWrite else s)
  else { s with inBuf := s.inBuf.writeAll i (bs.take (s.params.inCap - i)) }

/-- The state after `MemWrite(addr, n, v)`: an illegal one has no effect (R54, R185); the OUT_BUF window and the top region
ignore writes (R57). -/
def State.busWrite (s : State) (off : Offset) (n : Width) (v : Word) : State :=
  if legal off n then
    match region off with
    | .regs => s.writeReg (place off) v
    | .inWindow => s.writeInWindow (place off) (leBytes n v)
    | .outWindow => s
    | .top => s
  else s

/-- The response of a write (R53, R54, R57, R60): ERROR for an illegal one, OKAY for every other, dropped and ignored ones too. -/
def writeResp (off : Offset) (n : Width) : Resp := if legal off n then .okay else .error

end Sys2Proof.Machine
end

