-- ==== Sys2Proof/Machine/Agents.lean ====
section
/-! DEFINITION. The two agents (R6): the host's steps (R96, R190), and which agent moves next (R176, R180, R201). -/

namespace Sys2Proof.Machine

/-! ## The host script's syntax (R96, R97) -/

namespace Script

/-- `STB off, v`. -/
def stb (off : Offset) (v : Operand) : HostOp := .store .byte off v

/-- `STH off, v`. -/
def sth (off : Offset) (v : Operand) : HostOp := .store .half off v

/-- `STW off, v`. -/
def stw (off : Offset) (v : Operand) : HostOp := .store .word off v

/-- `LDB off -> r`. -/
def ldb (off : Offset) (r : Nat) : HostOp := .load .byte off r

/-- `LDH off -> r`. -/
def ldh (off : Offset) (r : Nat) : HostOp := .load .half off r

/-- `LDW off -> r`. -/
def ldw (off : Offset) (r : Nat) : HostOp := .load .word off r

/-- `ENCODE W=w`, `DECODE`, `DECODE_FAST`, with or without `A=1`: one word write of the command word to CMD (R97). -/
def command (i : Instr) : List HostOp := [stw 0x000 (.imm (encode i))]

/-- `STB 0x10000+i, s[i]` for each byte of `bs`, the first at index `i`. -/
def loadBytes : Nat → List Byte → List HostOp
  | _, [] => []
  | i, b :: bs => stb (BitVec.ofNat 18 (0x10000 + i)) (.imm (b.setWidth 32)) :: loadBytes (i + 1) bs

/-- `LOADIN "s"`: the bytes in order, then IN_LEN (R97). -/
def loadIn (bs : List Byte) : List HostOp :=
  loadBytes 0 bs ++ [stw 0x008 (.imm (BitVec.ofNat 32 bs.length))]

/-- `WAIT`, standing at step `here` of the script: poll STATUS into `st` until BUSY = 0 (R97). -/
def waitAt (here st : Nat) : List HostOp := [ldw 0x004 st, .bnz st 0x1 here]

/-- `CLRIGN` (R97). -/
def clrIgn : List HostOp := [stw 0x004 (.imm 0x4)]

/-- `LDB 0x20000+i -> o[i]` for i = 0..n-1: the loads of a READOUT whose first load returned `n` (R97). -/
def outLoads (o n : Nat) : List HostOp :=
  (List.range n).map fun i => ldb (BitVec.ofNat 18 (0x20000 + i)) (o + i)

/-- `READOUT -> o`, with OUT_LEN in the variable `len` (R97). -/
def readOut (len o : Nat) : List HostOp := [.readOut len o]

end Script

/-! ## The host's steps -/

/-- What every host step does besides its own effect: the host moves on in its script, and while a command runs one host step
less fits before its completion (log 5). -/
def State.hostTurn (s : State) : State :=
  { s with slack := s.slack - 1, host := s.host.advance }

/-- The host sees the response and data of its transaction (R53). -/
def State.answered (s : State) (r : Resp) (data : Word) : State :=
  { s with host := { s.host with resp := some (r, data) } }

/-- STB, STH, STW: `MemWrite(off, n, v)` (R96). -/
def State.hostStore (s : State) (n : Width) (off : Offset) (v : Operand) : State :=
  (s.busWrite off n (s.host.operand v)).answered (writeResp off n) 0

/-- LDB, LDH, LDW: `r <- MemRead(off, n).data` (R96). -/
def State.hostLoad (s : State) (n : Width) (off : Offset) (r : Nat) : State :=
  let a := s.busRead off n
  let t := (s.afterRead off n).answered a.1 a.2
  { t with host := t.host.setVar r a.2 }

/-- BNZ: the host goes to `label` if `(r & mask) != 0`; no bus transaction (R96). -/
def State.hostBranch (s : State) (r : Nat) (mask : Word) (label : Nat) : State :=
  if s.host.getVar r &&& mask ≠ 0 then { s with host := { s.host with pos := label } } else s

/-- The first step of a READOUT: `LDW 0x00C -> len`; the byte loads it calls for, as many as the OUT_LEN it returned, are the
host's next steps, one transaction each (R97, R59). -/
def State.hostReadOut (s : State) (len o : Nat) : State :=
  let t := s.hostLoad .word 0x00C len
  { t with host := { t.host with pending := Script.outLoads o (s.busRead 0x00C .word).2.toNat ++ t.host.pending } }

/-- One step of the host agent. A bus transaction while reset is asserted is outside the model (R192, U7). The spec names the
assertion of the reset input and the release that follows it (R190). DESIGN CHOICE (log 11), unsafe: a `releaseReset` while the
input is not asserted, or an `assertReset` while it is, resets the block like any other, and abandons a running command. -/
def State.hostStep (s : State) (op : HostOp) : Host.Outcome State Fault Refusal :=
  match op with
  | .store n off v => if s.rst then .refused .transactionInReset else .next (s.hostTurn.hostStore n off v)
  | .load n off r => if s.rst then .refused .transactionInReset else .next (s.hostTurn.hostLoad n off r)
  | .bnz r mask label => .next (s.hostTurn.hostBranch r mask label)
  | .readOut len o => if s.rst then .refused .transactionInReset else .next (s.hostTurn.hostReadOut len o)
  | .assertReset => .next (s.hostTurn.resetBlock true)
  | .releaseReset => .next (s.hostTurn.resetBlock false)

/-! ## Which agent moves -/

/-- Who makes the next step. -/
inductive Mover where
  | engine
  | host (op : HostOp)
  | idle
  deriving DecidableEq, Repr

/-- The engine has a step exactly while BUSY = 1 (R176), the host while its script has one. Where both have, the host moves as
long as slack is left, so every interleaving (R59, R180) is that of some slack, and the engine moves after finitely many host
steps (R201, log 6). Where neither has, the block idles (log 10). -/
def State.mover (s : State) : Mover :=
  match s.host.nextOp with
  | none => if s.busy then .engine else .idle
  | some op => if s.busy && s.slack == 0 then .engine else .host op

end Sys2Proof.Machine
end

