-- ==== Sys2Proof/Machine/Rom.lean ====
section
/-! DEFINITION. The two ROMs, ALPHA (R36, R87) and TABLE (R37, R90), the other fixed bytes (R88), and the byte classes of the
decoders (R91, R93). The codes are ASCII, which the spec supplies from general knowledge (G1, log 16). -/

namespace Sys2Proof.Machine

/-- The padding symbol `=` (R88). -/
def padByte : Byte := 0x3D

/-- CR (R88). -/
def crByte : Byte := 0x0D

/-- LF (R88). -/
def lfByte : Byte := 0x0A

/-- `ALPHA[i]`, in the closed form of R87: A-Z, a-z, 0-9, +, /. -/
def alpha (i : Sextet) : Byte :=
  if i.toNat ≤ 25 then BitVec.ofNat 8 (0x41 + i.toNat)
  else if i.toNat ≤ 51 then BitVec.ofNat 8 (0x61 + (i.toNat - 26))
  else if i.toNat ≤ 61 then BitVec.ofNat 8 (0x30 + (i.toNat - 52))
  else if i.toNat = 62 then 0x2B
  else 0x2F

/-- `TABLE[b]`, by the ranges of R90; `none` is INVALID, whose encoding is not observable (R37, U11). -/
def table (b : Byte) : Option Sextet :=
  if b.toNat = 0x2B then some 62
  else if b.toNat = 0x2F then some 63
  else if 0x30 ≤ b.toNat ∧ b.toNat ≤ 0x39 then some (BitVec.ofNat 6 (b.toNat - 0x30 + 52))
  else if 0x41 ≤ b.toNat ∧ b.toNat ≤ 0x5A then some (BitVec.ofNat 6 (b.toNat - 0x41))
  else if 0x61 ≤ b.toNat ∧ b.toNat ≤ 0x7A then some (BitVec.ofNat 6 (b.toNat - 0x61 + 26))
  else none

/-- An alphabet symbol: a byte with a TABLE value (R92). -/
def isSymbol (b : Byte) : Bool := (table b).isSome

/-- A separator: no alphabet symbol and not `=` (R91). -/
def isSep (b : Byte) : Bool := !isSymbol b && b != padByte

/-- A meaningful character: not a separator (R91). -/
def isMean (b : Byte) : Bool := !isSep b

/-- The sextet of a meaningful byte: its TABLE value, and 0 for `=` (R93). -/
def val (b : Byte) : Sextet := (table b).getD 0

/-- The meaningful characters of a text, in order (R131). -/
def meaningful (x : List Byte) : List Byte := x.filter isMean

/-- `acc = val(c0) ++ val(c1) ++ val(c2) ++ val(c3)` (R138). -/
def packSextets (c0 c1 c2 c3 : Byte) : Group := val c0 ++ val c1 ++ val c2 ++ val c3

/-- The bytes of a group, `acc[23:16]`, `acc[15:8]`, `acc[7:0]`, in that order (R138). -/
def groupBytes (acc : Group) : List Byte := [acc.extractLsb' 16 8, acc.extractLsb' 8 8, acc.extractLsb' 0 8]

end Sys2Proof.Machine
end

