-- ==== Sys2Proof/Machine/Encoder.lean ====
section
/-! DEFINITION. ENCODE (40_encode.md R110 to R120). -/

namespace Sys2Proof.Machine

/-- `groups = ceil(n/3)` (R113). -/
def encodeGroups (n : Nat) : Nat := (n + 2) / 3

/-- `charCount = 4 * groups` (R113). -/
def encodeChars (n : Nat) : Nat := 4 * encodeGroups n

/-- `nsep`: with W = 1, one separator after each 76 symbols that more symbols follow (R116). -/
def encodeSeps (wrap : Bool) (n : Nat) : Nat := if wrap then (encodeChars n - 1) / 76 else 0

/-- `len = charCount + 2 * nsep`, the required output length for n >= 1 (R113). -/
def encodeLen (wrap : Bool) (n : Nat) : Nat := encodeChars n + 2 * encodeSeps wrap n

/-- The four characters of a group of `k` bytes, missing bytes being 0x00 (R115): `ALPHA` of `v[23:18]` and `v[17:12]`, then of
`v[11:6]` and `v[5:0]` as far as there are bytes, else `=` (R117, R118). -/
def encodeGroup (k : Nat) (b0 b1 b2 : Byte) : List Byte :=
  let v : Group := b0 ++ b1 ++ b2
  [alpha (v.extractLsb' 18 6),
   alpha (v.extractLsb' 12 6),
   if 2 ≤ k then alpha (v.extractLsb' 6 6) else padByte,
   if k = 3 then alpha (v.extractLsb' 0 6) else padByte]

/-- CR LF after group `g` when W = 1, `(g + 1) mod 19 = 0` and another group follows, that is, input is left (R116, log 20). -/
def lineBreak (wrap : Bool) (g : Nat) (rest : List Byte) : List Byte :=
  if wrap && (g + 1) % 19 == 0 && !rest.isEmpty then [crByte, lfByte] else []

/-- The characters of the groups from number `g` on (R110's loop). -/
def encodeFrom (wrap : Bool) : Nat → List Byte → List Byte
  | _, [] => []
  | _, [b0] => encodeGroup 1 b0 0 0
  | _, [b0, b1] => encodeGroup 2 b0 b1 0
  | g, b0 :: b1 :: b2 :: rest => encodeGroup 3 b0 b1 b2 ++ lineBreak wrap g rest ++ encodeFrom wrap (g + 1) rest

/-- The Base64 text of a byte string (R110). -/
def encodeText (wrap : Bool) (x : List Byte) : List Byte := encodeFrom wrap 0 x

/-- ENCODE on present, non-empty input: the length is computed first, and checked against OUT_CAP (R113, R114). -/
def encodeOp (wrap : Bool) (outCap : Nat) (x : List Byte) : Completion :=
  fitted outCap (encodeLen wrap x.length) (encodeText wrap x)

/-- ENCODE (R110): absent input gives InputDataEmpty (R111), empty input OK (R112). -/
def execEncode (wrap absent : Bool) (s : State) : Host.Outcome State Fault Refusal :=
  .next (s.complete (s.checked absent .inputDataEmpty (encodeOp wrap)))

end Sys2Proof.Machine
end

