-- ==== Sys2Proof/Machine/Decoder.lean ====
section
/-! DEFINITION. DECODE, the standard decoder (41_decode.md R130 to R142). -/

namespace Sys2Proof.Machine

/-- `sepCount`: the separators of the input (R134). -/
def sepCount (x : List Byte) : Nat := x.countP isSep

/-- `m = n - sepCount`: the meaningful characters (R134). -/
def meanCount (x : List Byte) : Nat := x.length - sepCount x

/-- The scan of R135, on the bytes from the last to the first: separators are skipped, each `=` is counted, and the first alphabet
symbol ends it. -/
def padScan : List Byte → Nat
  | [] => 0
  | b :: bs => if isSep b then padScan bs else if b = padByte then padScan bs + 1 else 0

/-- `pad`: the `=` with no alphabet symbol after them (R135). -/
def padCount (x : List Byte) : Nat := padScan x.reverse

/-- `dLen = (m * 6) div 8 - pad` (R136). -/
def decodeLen (x : List Byte) : Nat := meanCount x * 6 / 8 - padCount x

/-- The bytes of the groups of four meaningful characters, three a group (R138). -/
def unpackGroups : List Byte → List Byte
  | c0 :: c1 :: c2 :: c3 :: cs => groupBytes (packSextets c0 c1 c2 c3) ++ unpackGroups cs
  | _ => []

/-- The decode pass: the first `dLen` bytes of the groups of the meaningful characters, so the last group may give 1 or 2
(R138, R139; log 19). -/
def decodeText (x : List Byte) : List Byte := (unpackGroups (meaningful x)).take (decodeLen x)

/-- DECODE on present, non-empty input: the two structural checks (R134, R136), then the output length (R137). -/
def decodeOp (outCap : Nat) (x : List Byte) : Completion :=
  if meanCount x % 4 ≠ 0 then .finish .base64EncodingInvalid 0 []
  else if 2 < padCount x then .finish .base64EncodingInvalid 0 []
  else fitted outCap (decodeLen x) (decodeText x)

/-- DECODE (R130): absent input gives Base64StringEmpty (R132), empty input OK (R133). W is ignored (R83). -/
def execDecode (_wrap absent : Bool) (s : State) : Host.Outcome State Fault Refusal :=
  .next (s.complete (s.checked absent .base64StringEmpty decodeOp))

end Sys2Proof.Machine
end

