-- ==== Sys2Proof/Machine/FastDecoder.lean ====
section
/-! DEFINITION. DECODE_FAST, the trusting decoder (42_decode_fast.md R150 to R163), with its precondition FastPre (R152). -/

namespace Sys2Proof.Machine

/-- `x[s..e]`: the text between its first and last meaningful characters, both included (R154). -/
def content (x : List Byte) : List Byte := ((x.dropWhile isSep).reverse.dropWhile isSep).reverse

/-! ## The precondition (R152) -/

/-- `Wrap76` from column `k` on: CR LF after the byte in column 75, unless it is the last byte. -/
def wrapFrom : Nat → List Byte → List Byte
  | _, [] => []
  | k, b :: bs =>
    if k = 75 && !bs.isEmpty then b :: crByte :: lfByte :: wrapFrom 0 bs
    else b :: wrapFrom (k + 1) bs

/-- `Wrap76(y)`: `y` with CR LF inserted after every 76th byte except after its last byte (R152). -/
def wrap76 (y : List Byte) : List Byte := wrapFrom 0 y

/-- R152 (b) 1: the length is a multiple of 4, and the text is alphabet symbols and then at most two `=`. -/
def wellPadded (y : List Byte) : Bool :=
  y.length % 4 == 0 && (y.dropWhile isSymbol).all (· == padByte) && decide ((y.dropWhile isSymbol).length ≤ 2)

/-- `FastPre(x)`, for a non-empty input (R152): no byte is meaningful, or the content is well padded once its separators are
deleted and is either free of separators or wrapped at 76. The hardware never evaluates it; the model does, to choose between
the exact result and the draw of R161. -/
def fastPre (x : List Byte) : Bool :=
  x.all isSep ||
    (wellPadded (meaningful (content x)) &&
      (content x == meaningful (content x) || content x == wrap76 (meaningful (content x))))

/-! ## The datapath (R150), on the content `c` -/

/-- `pad`, from the last one or two bytes of the content (R155). -/
def fastPad (c : List Byte) : Nat :=
  match c.reverse with
  | [] => 0
  | [p] => if p = padByte then 1 else 0
  | p :: q :: _ => if p = padByte then (if q = padByte then 2 else 1) else 0

/-- `wrapped = (s + 76 <= e) and In(s + 76) = CR`: the probe, at offset 76 of the content (R156). -/
def fastWrapped (c : List Byte) : Bool := decide (76 < c.length) && c.getD 76 0 == crByte

/-- `sep = 2 * (L div 78)` if wrapped, else 0 (R156). -/
def fastSep (c : List Byte) : Nat := if fastWrapped c then 2 * (c.length / 78) else 0

/-- `dLen = ((L - sep) * 6) div 8 - pad` (R157). -/
def fastLen (c : List Byte) : Nat := (c.length - fastSep c) * 6 / 8 - fastPad c

/-- The fixed-stride loop (R158): the bytes of the given number of groups of 4 bytes, none tested, and the bytes left after them.
`cc` counts the groups of the line; with `stride`, 2 bytes are stepped over after the 19th. A content too short for the
groups does not occur under FastPre (log 18). -/
def fastGroups (stride : Bool) : Nat → Nat → List Byte → List Byte × List Byte
  | 0, _, cs => ([], cs)
  | k + 1, cc, c0 :: c1 :: c2 :: c3 :: cs =>
    let r :=
      if stride && cc + 1 == 19 then fastGroups stride k 0 (cs.drop 2)
      else fastGroups stride k (cc + 1) cs
    (groupBytes (packSextets c0 c1 c2 c3) ++ r.1, r.2)
  | _ + 1, _, cs => ([], cs)

/-- The tail's accumulator (R159): the sextets of the bytes, the first one shifted by `sh`, each next one by 6 less. -/
def fastTailAcc : Nat → List Byte → Group
  | _, [] => 0
  | sh, c :: cs => ((val c).setWidth 24 <<< sh) ||| fastTailAcc (sh - 6) cs

/-- The output bytes: the whole groups, then the top `dLen mod 3` bytes of the tail, which is what is left of the content less
its padding (R158, R159). -/
def fastText (c : List Byte) : List Byte :=
  let r := fastGroups (decide (0 < fastSep c)) (fastLen c / 3) 0 c
  let tail := r.2.take (r.2.length - fastPad c)
  r.1 ++ (groupBytes (fastTailAcc 18 tail)).take (fastLen c % 3)

/-- DECODE_FAST on present, non-empty input: no meaningful byte gives OK with nothing (R153), an input outside FastPre the
draw (R161), else the datapath with its output length checked (R157). -/
def decodeFastOp (outCap : Nat) (x : List Byte) : Completion :=
  if x.all isSep then .finish .ok 0 []
  else if !fastPre x then .draw
  else fitted outCap (fastLen (content x)) (fastText (content x))

/-- DECODE_FAST (R150): absent input gives InputDataEmpty and empty input OK (R151). W is ignored (R83). -/
def execDecodeFast (_wrap absent : Bool) (s : State) : Host.Outcome State Fault Refusal :=
  .next (s.complete (s.checked absent .inputDataEmpty decodeFastOp))

end Sys2Proof.Machine
end

