-- ==== Sys2Proof/Machine/Reserved.lean ====
section
/-! DEFINITION. The reserved command, OP = 0b11 (R85). -/

namespace Sys2Proof.Machine

/-- RESERVED: completes with UnknownError and OUT_LEN = 0, before any field is looked at; no buffer byte is read or written
(R85, R172 step 1). -/
def execReserved (_wrap _absent : Bool) (s : State) : Host.Outcome State Fault Refusal :=
  .next (s.complete (.finish .unknownError 0 []))

end Sys2Proof.Machine
end

