-- ==== Sys2Proof/Machine/Dispatch.lean ====
section
/-! DEFINITION. The dispatch: one arm per command (R81, R176). -/

namespace Sys2Proof.Machine

/-- The engine's evaluation and completion of a command (R176). -/
def exec (i : Instr) (s : State) : Host.Outcome State Fault Refusal :=
  match i with
  | .encode w a => Sys2Proof.Machine.execEncode w a s
  | .decode w a => Sys2Proof.Machine.execDecode w a s
  | .decodeFast w a => Sys2Proof.Machine.execDecodeFast w a s
  | .reserved w a => Sys2Proof.Machine.execReserved w a s

end Sys2Proof.Machine
end

