-- ==== Sys2Proof/Machine/Step.lean ====
section
/-! DEFINITION. One step of the machine: the engine's completion of the latched command (R176), a step of the host (R96), or
nothing where neither agent has one. -/

namespace Sys2Proof.Machine

/-- One step, by the agent whose turn it is. -/
def step (s : State) : Host.Outcome State Fault Refusal :=
  match s.mover with
  | .engine => exec s.cur.instr s
  | .host op => s.hostStep op
  | .idle => .next s

/-- `s` with the command word `w` where the engine takes its next command from, and the engine's turn: CUR holds its fields,
BUSY = 1 and DONE = 0, as a CMD write leaves them (R175), and no host step falls before the completion (log 4). -/
def State.withFetchWord (s : State) (nbits w : Nat) : State :=
  { s with cur := latch (BitVec.ofNat 32 (w % 2 ^ nbits)), busy := true, done := false, slack := 0 }

end Sys2Proof.Machine
end

