-- ==== Sys2Proof/Safety.lean ====
section
/-! DEFINITION. The invariant of the machine, and the terms the statements use. -/

namespace Sys2Proof.Machine

/-- A buffer in order: canonical cells, each inside the capacity (R28, R29), and a fill that is a draw already made. -/
structure Buffer.Ok (b : Buffer) (cap draws : Nat) : Prop where
  canonical : Memory.wf b.cells
  inside    : ∀ c ∈ b.cells, c.1 < cap
  drawn     : b.fill < draws

/-- What holds at reset and after every step. -/
structure State.Inv (s : State) : Prop where
  /-- The parameters are legal (R7). -/
  params      : s.params.wf = true
  /-- BUSY = 1 implies DONE = 0 (R24). -/
  busyNotDone : s.busy = true → s.done = false
  /-- OUT_LEN <= OUT_CAP (R31). -/
  outLenFits  : s.outLen.toNat ≤ s.params.outCap
  /-- OUT_LEN is 0 on every error (R31). -/
  errorEmpty  : s.result ≠ .ok → s.outLen = 0
  /-- While no command has started since reset, RESULT and OUT_LEN hold their reset values (R26, R32). -/
  untouched   : s.busy = false → s.done = false → s.result = .ok ∧ s.outLen = 0
  /-- Reset holds the flags at their reset values (R190). -/
  inReset     : s.rst = true → s.busy = false ∧ s.done = false ∧ s.ign = false ∧ s.inLen = 0
  /-- IN_BUF holds bytes below IN_CAP only, in canonical form (R28). -/
  inBufOk     : s.inBuf.Ok s.params.inCap s.draws
  /-- OUT_BUF holds bytes below OUT_CAP only, in canonical form (R29). -/
  outBufOk    : s.outBuf.Ok s.params.outCap s.draws
  /-- The host's variables are listed in canonical form. -/
  varsOk      : cellsWf s.host.vars

/-- The outcome of the command is the draw of R161: a DECODE_FAST of present, non-empty input that fits the buffer and does
not meet FastPre, which is software's obligation to avoid (R198). -/
def State.outcomeDrawn (s : State) (i : Instr) : Prop :=
  i.op = 0b10#2 ∧ i.absent = false ∧ 1 ≤ s.inLen.toNat ∧ s.inLen.toNat ≤ s.params.inCap ∧
    fastPre (s.inBytes s.inLen.toNat) = false

/-- The state in which a command ends that writes no output (R176, R177): RESULT is the code, OUT_LEN is 0, BUSY is cleared, DONE is
set, and everything else, every byte of OUT_BUF too, is as before (`slack` is the model's own, log 5). -/
def State.endedEmpty (s : State) (code : Code) : State :=
  { s with result := code, outLen := 0, busy := false, done := true, slack := 0 }

/-! ## Terms of the statements -/

/-- Group `g` of an input of `n` bytes, the bytes beyond the input being 0x00 (R115). -/
def State.inGroup (s : State) (n g : Nat) : Group :=
  s.inByte (3 * g) ++ (if 3 * g + 1 < n then s.inByte (3 * g + 1) else 0) ++
    (if 3 * g + 2 < n then s.inByte (3 * g + 2) else 0)

/-- The output offset of the first symbol of group `g`: 4 a group, and with W = 1 two more for each line before it (R116). -/
def groupOffset (wrap : Bool) (g : Nat) : Nat := 4 * g + 2 * (if wrap then g / 19 else 0)

/-- Byte `d` of the text whose meaningful characters are `y`: byte `d mod 3`, most significant first, of the 24-bit value of the
four characters of group `d div 3` (R138). -/
def textByte (y : List Byte) (d : Nat) : Byte :=
  (packSextets (y.getD (4 * (d / 3)) 0) (y.getD (4 * (d / 3) + 1) 0) (y.getD (4 * (d / 3) + 2) 0)
    (y.getD (4 * (d / 3) + 3) 0)).extractLsb' (16 - 8 * (d % 3)) 8

/-- The output length a command requires of a present, non-empty input (R174). -/
def requiredLen (i : Instr) (x : List Byte) : Nat :=
  match i with
  | .encode w _ => encodeLen w x.length
  | .decode _ _ => decodeLen x
  | .decodeFast _ _ => fastLen (content x)
  | .reserved _ _ => 0

end Sys2Proof.Machine
end

