-- ==== Sys2Proof/Certificates/Slice0/Obligations.lean ====
section
/-! DEFINITION. The statements about the model, for the provers. Each one's docstring names the rules of spec/ it comes from.
`endedEmpty`, `outcomeDrawn`, `inGroup`, `groupOffset`, `textByte` and `requiredLen` stand in Safety.lean. -/

open Sys2Proof Sys2Proof.Machine

/-! ## Encodings (30_encoding.md) -/

/-- Command words written out from R80 and R81, and the words of R97, decode to their commands. -/
def Obligations.CommandWordsDecode : Prop :=
  decodeWord 0x00000000 = .encode false false ∧ decodeWord 0x00000004 = .encode true false ∧
  decodeWord 0x00000008 = .encode false true ∧ decodeWord 0x0000000C = .encode true true ∧
  decodeWord 0x00000001 = .decode false false ∧ decodeWord 0x00000009 = .decode false true ∧
  decodeWord 0x00000002 = .decodeFast false false ∧ decodeWord 0x0000000A = .decodeFast false true ∧
  decodeWord 0x00000003 = .reserved false false ∧ decodeWord 0xFFFFFFF0 = .encode false false

/-- The encoder and the decoder agree both ways (R80, R81, R84, R86): the bytes of a command's word, whatever stands in bits 31:4,
decode to the command and leave what follows, and every word is the word of its command with its own bits 31:4. -/
def Obligations.DecodeAndEncodeAgree : Prop :=
  (∀ (x : BitVec 28) (i : Instr) (rest : List Byte), decode (wordBytes (encodeWith x i) ++ rest) = .ok (i, rest)) ∧
  (∀ w : Word, encodeWith (cmdIgnored w) (decodeWord w) = w) ∧
  (∀ bs : List Byte, bs.length < 4 → decode bs = .error (.short bs.length))

/-- R86: every word is of exactly one row of the opcode table, that of its command, and bits 1:0 alone pick it. -/
def Obligations.EveryWordSelectsOneCommand : Prop :=
  (∀ (w : Word) (r : OpcodeRow), r ∈ opcodeTable → (w &&& r.mask = r.fixed ↔ r.mnemonic = (decodeWord w).mnemonic)) ∧
  (∀ w : Word, ∃ r ∈ opcodeTable, r.mnemonic = (decodeWord w).mnemonic) ∧
  (∀ w v : Word, w.extractLsb' 0 2 = v.extractLsb' 0 2 → (decodeWord w).mnemonic = (decodeWord v).mnemonic)

/-- R87, R88: ALPHA is the table of R87, row by row, and `=`, CR and LF are the bytes of R88. That the codes are ASCII is the spec's
general knowledge (log 16). -/
def Obligations.FixedBytesAreThoseOfTheSpec : Prop :=
  (List.range 64).map (fun i => alpha (BitVec.ofNat 6 i)) =
    [0x41, 0x42, 0x43, 0x44, 0x45, 0x46, 0x47, 0x48, 0x49, 0x4A, 0x4B, 0x4C, 0x4D, 0x4E, 0x4F, 0x50] ++
    [0x51, 0x52, 0x53, 0x54, 0x55, 0x56, 0x57, 0x58, 0x59, 0x5A, 0x61, 0x62, 0x63, 0x64, 0x65, 0x66] ++
    [0x67, 0x68, 0x69, 0x6A, 0x6B, 0x6C, 0x6D, 0x6E, 0x6F, 0x70, 0x71, 0x72, 0x73, 0x74, 0x75, 0x76] ++
    [0x77, 0x78, 0x79, 0x7A, 0x30, 0x31, 0x32, 0x33, 0x34, 0x35, 0x36, 0x37, 0x38, 0x39, 0x2B, 0x2F] ∧
  padByte = 0x3D ∧ crByte = 0x0D ∧ lfByte = 0x0A

/-- R92: TABLE is the exact inverse of ALPHA. -/
def Obligations.TableInvertsAlphabet : Prop :=
  (∀ b : Byte, table b ≠ none ↔ ∃ i : Sextet, alpha i = b) ∧ (∀ i : Sextet, table (alpha i) = some i)

/-- R91 with R89 and R93: `=` is no alphabet symbol and no separator, a separator is any other byte that is no symbol, and the
value of a meaningful byte is its index in the alphabet, or 0 for `=`. -/
def Obligations.ByteClassesOfTheDecoders : Prop :=
  (∀ i : Sextet, alpha i ≠ padByte) ∧
  (∀ b : Byte, isSep b = true ↔ (¬ ∃ i : Sextet, alpha i = b) ∧ b ≠ padByte) ∧
  (∀ b : Byte, isMean b = !isSep b) ∧ (∀ i : Sextet, val (alpha i) = i) ∧ val padByte = 0

/-! ## What every command does (60_exceptions.md) -/

/-- R111, R132, R82: absent input ends each operation with its own code, OUT_LEN = 0 and nothing else changed, whatever IN_LEN, IN_BUF
and W are. -/
def Obligations.AbsentInputEndsWithItsCode : Prop :=
  ∀ (s : State) (w : Bool),
    exec (.encode w true) s = .next (s.endedEmpty .inputDataEmpty) ∧
    exec (.decode w true) s = .next (s.endedEmpty .base64StringEmpty) ∧
    exec (.decodeFast w true) s = .next (s.endedEmpty .inputDataEmpty)

/-- R112, R133 and R151: a present input of length 0 ends each operation with OK, OUT_LEN = 0 and no byte written. -/
def Obligations.EmptyInputSucceedsEmpty : Prop :=
  ∀ (s : State) (w : Bool), s.inLen = 0 →
    exec (.encode w false) s = .next (s.endedEmpty .ok) ∧
    exec (.decode w false) s = .next (s.endedEmpty .ok) ∧
    exec (.decodeFast w false) s = .next (s.endedEmpty .ok)

/-- R85: the reserved command starts like any other and completes with UnknownError, OUT_LEN = 0 and no other effect. -/
def Obligations.ReservedCompletesWithUnknownError : Prop :=
  (∀ (s : State) (w a : Bool), exec (.reserved w a) s = .next (s.endedEmpty .unknownError)) ∧
  (∀ (s : State) (v : Word), v.extractLsb' 0 2 = 0b11#2 → s.busy = false →
    (s.busWrite 0x000 .word v).busy = true ∧ (s.busWrite 0x000 .word v).done = false ∧
    (s.busWrite 0x000 .word v).cur.instr = .reserved (v.getLsbD 2) (v.getLsbD 3))

/-- R173: UnknownError is produced in exactly two cases, the reserved command and a present input longer than IN_CAP, and then
OUT_LEN = 0 and OUT_BUF is unchanged. -/
def Obligations.UnknownErrorInExactlyTwoCases : Prop :=
  (∀ (i : Instr) (s t : State), exec i s = .next t →
    (t.result = .unknownError ↔ i.op = 0b11#2 ∨ (i.absent = false ∧ s.params.inCap < s.inLen.toNat))) ∧
  (∀ (i : Instr) (s : State), i.op = 0b11#2 ∨ (i.absent = false ∧ s.params.inCap < s.inLen.toNat) →
    exec i s = .next (s.endedEmpty .unknownError))

/-- R172: the first condition that holds, in this order, decides the code. -/
def Obligations.CheckOrderDecidesTheCode : Prop :=
  ∀ (i : Instr) (s t : State) (n : Nat) (x : List Byte),
    n = s.inLen.toNat → x = s.inBytes n → exec i s = .next t →
    if i.op = 0b11#2 then t.result = .unknownError
    else if i.absent = true then
      t.result = (if i.op = 0b01#2 then .base64StringEmpty else .inputDataEmpty)
    else if s.params.inCap < n then t.result = .unknownError
    else if n = 0 then t.result = .ok ∧ t.outLen = 0
    else if i.op = 0b01#2 ∧ (x.filter isMean).length % 4 ≠ 0 then t.result = .base64EncodingInvalid
    else if i.op = 0b01#2 ∧ 2 < padCount x then t.result = .base64EncodingInvalid
    else if i.op = 0b10#2 ∧ x.filter isMean = [] then t.result = .ok ∧ t.outLen = 0
    else if i.op = 0b10#2 ∧ fastPre x = false then t.result = .ok ∨ t.result = .noMemory
    else if s.params.outCap < Sys2Proof.Machine.requiredLen i x then t.result = .noMemory
    else t.result = .ok

/-- R171, with R110, R130, R150 and R162: the codes each operation can produce. -/
def Obligations.CodesEachCommandProduces : Prop :=
  ∀ (w a : Bool) (s t : State),
    (exec (.encode w a) s = .next t →
      t.result = .ok ∨ t.result = .inputDataEmpty ∨ t.result = .noMemory ∨ t.result = .unknownError) ∧
    (exec (.decode w a) s = .next t →
      t.result = .ok ∨ t.result = .base64StringEmpty ∨ t.result = .noMemory ∨ t.result = .base64EncodingInvalid ∨
        t.result = .unknownError) ∧
    (exec (.decodeFast w a) s = .next t →
      t.result = .ok ∨ t.result = .inputDataEmpty ∨ t.result = .noMemory ∨ t.result = .unknownError) ∧
    (exec (.reserved w a) s = .next t → t.result = .unknownError)

/-- R170: every command, in every state, ends in a completion that clears BUSY and sets DONE. -/
def Obligations.EveryCommandCompletes : Prop :=
  ∀ (i : Instr) (s : State), ∃ t, exec i s = .next t ∧ t.busy = false ∧ t.done = true

/-- The frame of a completion, for all four commands (R176, R177, R68): it changes STATUS.BUSY, STATUS.DONE, RESULT, OUT_LEN and
OUT_BUF only (and the model's own `slack` and `draws`); on any code other than OK OUT_LEN is 0 and no OUT_BUF byte changes; and on OK
no byte at or beyond OUT_LEN changes, but for the draw of R161. -/
def Obligations.CompletionFrame : Prop :=
  ∀ (i : Instr) (s t : State), s.params.wf = true → exec i s = .next t →
    t.params = s.params ∧ t.ign = s.ign ∧ t.inLen = s.inLen ∧ t.cur = s.cur ∧ t.inBuf = s.inBuf ∧ t.rst = s.rst ∧
    t.latencies = s.latencies ∧ t.host = s.host ∧
    (t.result ≠ .ok → t.outLen = 0 ∧ ∀ a, t.outByte a = s.outByte a) ∧
    (¬ s.outcomeDrawn i → ∀ a, t.outLen.toNat ≤ a → t.outByte a = s.outByte a)

/-- R67 with R11: two states that agree on the capacities, on IN_LEN and on the bytes the command may read (none when the command is
reserved or absent, or IN_LEN > IN_CAP) end with the same code, length and output bytes, but for the draw of R161. -/
def Obligations.CommandsReadOnlyTheirInput : Prop :=
  ∀ (i : Instr) (s s' : State), s.params = s'.params → s.inLen = s'.inLen →
    (i.op ≠ 0b11#2 → i.absent = false → s.inLen.toNat ≤ s.params.inCap →
      ∀ j, j < s.inLen.toNat → s.inByte j = s'.inByte j) →
    ¬ s.outcomeDrawn i →
    ∃ t t', exec i s = .next t ∧ exec i s' = .next t' ∧ t.result = t'.result ∧ t.outLen = t'.outLen ∧
      ∀ j, j < t.outLen.toNat → t.outByte j = t'.outByte j

/-! ## ENCODE (40_encode.md) -/

/-- R113, R115 to R118: ENCODE of a present input that fits both buffers ends with OK; OUT_LEN is `4 * groups` and two more for each
line break; each group's four characters stand at the group's offset; and with W = 1 the j-th CR LF stands at `78j - 2`. Nothing is
written beyond OUT_LEN. -/
def Obligations.EncodeWritesTheText : Prop :=
  ∀ (s : State) (w : Bool) (n groups len : Nat), s.params.wf = true →
    n = s.inLen.toNat → 1 ≤ n → n ≤ s.params.inCap →
    groups = (n + 2) / 3 → len = 4 * groups + 2 * (if w then (groups - 1) / 19 else 0) → len ≤ s.params.outCap →
    ∃ t, exec (.encode w false) s = .next t ∧ t.result = .ok ∧ t.outLen.toNat = len ∧ t.busy = false ∧ t.done = true ∧
      (∀ g, g < groups →
        t.outByte (groupOffset w g) = alpha ((s.inGroup n g).extractLsb' 18 6) ∧
        t.outByte (groupOffset w g + 1) = alpha ((s.inGroup n g).extractLsb' 12 6) ∧
        t.outByte (groupOffset w g + 2) =
          (if 3 * g + 1 < n then alpha ((s.inGroup n g).extractLsb' 6 6) else padByte) ∧
        t.outByte (groupOffset w g + 3) =
          (if 3 * g + 2 < n then alpha ((s.inGroup n g).extractLsb' 0 6) else padByte)) ∧
      (∀ j, w = true → 1 ≤ j → 19 * j < groups →
        t.outByte (78 * j - 2) = crByte ∧ t.outByte (78 * j - 1) = lfByte) ∧
      (∀ a, len ≤ a → t.outByte a = s.outByte a)

/-- R114: an output longer than OUT_CAP ends ENCODE with NoMemory, OUT_LEN = 0 and no byte written; one of exactly OUT_CAP bytes, or
fewer, succeeds. -/
def Obligations.EncodeTooLongGivesNoMemory : Prop :=
  ∀ (s : State) (w : Bool) (groups len : Nat), 1 ≤ s.inLen.toNat → s.inLen.toNat ≤ s.params.inCap →
    groups = (s.inLen.toNat + 2) / 3 → len = 4 * groups + 2 * (if w then (groups - 1) / 19 else 0) →
    (s.params.outCap < len → exec (.encode w false) s = .next (s.endedEmpty .noMemory)) ∧
    (len ≤ s.params.outCap → ∃ t, exec (.encode w false) s = .next t ∧ t.result = .ok)

/-- R110 ("here d = len"), R113, R116: the length computed before any byte is written is the number of characters written, and the
two forms of the separator count agree. -/
def Obligations.EncodeLengthIsComputedRight : Prop :=
  ∀ (w : Bool) (x : List Byte), x ≠ [] →
    (encodeText w x).length = encodeLen w x.length ∧
    encodeSeps w x.length = (if w then (encodeGroups x.length - 1) / 19 else 0)

/-- R119: up to 57 input bytes W has no effect. -/
def Obligations.WrapHasNoEffectOnShortInput : Prop :=
  ∀ (s : State) (a : Bool), s.inLen.toNat ≤ 57 → exec (.encode true a) s = exec (.encode false a) s

/-- R119, R89: ENCODE writes alphabet bytes, `=`, CR and LF only, and `=` only in its last two positions. -/
def Obligations.EncodeOutputAlphabet : Prop :=
  ∀ (w : Bool) (x : List Byte),
    (∀ b ∈ encodeText w x, isSymbol b = true ∨ b = padByte ∨ (w = true ∧ (b = crByte ∨ b = lfByte))) ∧
    (∀ j, (encodeText w x).getD j 0 = padByte → (encodeText w x).length ≤ j + 2)

/-! ## DECODE (41_decode.md) -/

/-- R136, R138, R139: DECODE of a present input whose meaningful characters `y` are a multiple of 4, with at most two trailing `=`
and an output that fits, ends with OK; OUT_LEN is `(m * 6) div 8 - pad`; byte `d` of the output is byte `d mod 3` of group `d div 3` of
`y`; and nothing is written beyond it. -/
def Obligations.DecodeWritesTheBytes : Prop :=
  ∀ (s : State) (w : Bool) (n len : Nat) (x y : List Byte), s.params.wf = true →
    n = s.inLen.toNat → 1 ≤ n → n ≤ s.params.inCap → x = s.inBytes n → y = x.filter isMean →
    y.length % 4 = 0 → padCount x ≤ 2 → len = y.length * 6 / 8 - padCount x → len ≤ s.params.outCap →
    ∃ t, exec (.decode w false) s = .next t ∧ t.result = .ok ∧ t.outLen.toNat = len ∧ t.busy = false ∧ t.done = true ∧
      (∀ d, d < len → t.outByte d = textByte y d) ∧ (∀ a, len ≤ a → t.outByte a = s.outByte a)

/-- R134, R136: a meaningful count that is no multiple of 4, or more than two trailing `=`, ends DECODE with
Base64EncodingInvalid, OUT_LEN = 0 and no byte written. -/
def Obligations.DecodeRejectsBadStructure : Prop :=
  ∀ (s : State) (w : Bool) (x : List Byte), 1 ≤ s.inLen.toNat → s.inLen.toNat ≤ s.params.inCap →
    x = s.inBytes s.inLen.toNat → ((x.filter isMean).length % 4 ≠ 0 ∨ 2 < padCount x) →
    exec (.decode w false) s = .next (s.endedEmpty .base64EncodingInvalid)

/-- R137: after both checks, an output longer than OUT_CAP ends DECODE with NoMemory, OUT_LEN = 0 and no byte written. -/
def Obligations.DecodeTooLongGivesNoMemory : Prop :=
  ∀ (s : State) (w : Bool) (x : List Byte), 1 ≤ s.inLen.toNat → s.inLen.toNat ≤ s.params.inCap →
    x = s.inBytes s.inLen.toNat → (x.filter isMean).length % 4 = 0 → padCount x ≤ 2 →
    s.params.outCap < (x.filter isMean).length * 6 / 8 - padCount x →
    exec (.decode w false) s = .next (s.endedEmpty .noMemory)

/-- R135: `pad` counts every `=` that has no alphabet symbol after it; so a text that ends in a symbol has none, a separator at the
end changes nothing, and a `=` at the end is one more. -/
def Obligations.PadCountsTrailingPadding : Prop :=
  padCount [] = 0 ∧
  (∀ (x : List Byte) (b : Byte), isSymbol b = true → padCount (x ++ [b]) = 0) ∧
  (∀ (x : List Byte) (b : Byte), isSep b = true → padCount (x ++ [b]) = padCount x) ∧
  (∀ x : List Byte, padCount (x ++ [padByte]) = padCount x + 1) ∧
  (∀ x : List Byte, padCount x =
    ((List.range x.length).filter fun i => x.getD i 0 == padByte && (x.drop (i + 1)).all fun b => !isSymbol b).length)

/-- R131: two inputs with the same meaningful characters, in the same order, give DECODE the same code, length and output. -/
def Obligations.DecodeIgnoresSeparators : Prop :=
  ∀ (s s' : State) (w w' : Bool), s.params.outCap = s'.params.outCap →
    s.inLen.toNat ≤ s.params.inCap → s'.inLen.toNat ≤ s'.params.inCap →
    (s.inBytes s.inLen.toNat).filter isMean = (s'.inBytes s'.inLen.toNat).filter isMean →
    ∃ t t', exec (.decode w false) s = .next t ∧ exec (.decode w' false) s' = .next t' ∧ t.result = t'.result ∧
      t.outLen = t'.outLen ∧ ∀ j, j < t.outLen.toNat → t.outByte j = t'.outByte j

/-- R142, R153: an input of separators only ends both decoders with OK, OUT_LEN = 0 and no byte written. -/
def Obligations.SeparatorsOnlyDecodeToNothing : Prop :=
  ∀ (s : State) (w : Bool), 1 ≤ s.inLen.toNat → s.inLen.toNat ≤ s.params.inCap →
    (∀ b ∈ s.inBytes s.inLen.toNat, isSep b = true) →
    exec (.decode w false) s = .next (s.endedEmpty .ok) ∧ exec (.decodeFast w false) s = .next (s.endedEmpty .ok)

/-! ## DECODE_FAST (42_decode_fast.md) -/

/-- R152: what the decision of FastPre decides. Either no byte is meaningful, or the text is a run of separators, a content `c` whose
first and last bytes are meaningful, and a run of separators, where the meaningful characters of `c` are alphabet symbols `z` and then
`p <= 2` times `=`, a multiple of 4 in all, and `c` is these characters, unwrapped or wrapped at 76. -/
def Obligations.FastPreDecidesThePrecondition : Prop :=
  ∀ x : List Byte, fastPre x = true ↔
    (∀ b ∈ x, isMean b = false) ∨
    ∃ (front c back z : List Byte) (p : Nat), x = front ++ c ++ back ∧
      (∀ b ∈ front, isSep b = true) ∧ (∀ b ∈ back, isSep b = true) ∧ c ≠ [] ∧
      isMean (c.headD 0) = true ∧ isMean (c.getLastD 0) = true ∧
      c.filter isMean = z ++ List.replicate p padByte ∧ (∀ b ∈ z, isSymbol b = true) ∧ p ≤ 2 ∧
      (z.length + p) % 4 = 0 ∧ (c = c.filter isMean ∨ c = wrap76 (c.filter isMean))

/-- R152: `Wrap76(y)` is `y` with CR LF after every 76th byte except after its last byte. -/
def Obligations.WrapAtSeventySix : Prop :=
  ∀ y : List Byte, (wrap76 y).length = y.length + 2 * ((y.length - 1) / 76) ∧
    (∀ i, i < y.length → (wrap76 y).getD (i + 2 * (i / 76)) 0 = y.getD i 0) ∧
    (∀ j, 1 ≤ j → 76 * j < y.length →
      (wrap76 y).getD (78 * j - 2) 0 = crByte ∧ (wrap76 y).getD (78 * j - 1) 0 = lfByte)

/-- R154 to R159: on a present input that meets FastPre and whose output fits, DECODE_FAST ends with OK, OUT_LEN and the output bytes
those of the group packing, and writes nothing beyond OUT_LEN. -/
def Obligations.FastDecodesItsPreconditionExactly : Prop :=
  ∀ (s : State) (w : Bool) (n len : Nat) (x y : List Byte), s.params.wf = true →
    n = s.inLen.toNat → 1 ≤ n → n ≤ s.params.inCap → x = s.inBytes n → fastPre x = true → y = x.filter isMean →
    len = y.length * 6 / 8 - padCount x → len ≤ s.params.outCap →
    ∃ t, exec (.decodeFast w false) s = .next t ∧ t.result = .ok ∧ t.outLen.toNat = len ∧ t.busy = false ∧ t.done = true ∧
      (∀ d, d < len → t.outByte d = textByte y d) ∧ (∀ a, len ≤ a → t.outByte a = s.outByte a)

/-- R160: on an input that meets FastPre, DECODE_FAST and DECODE end in the same state, with OK or NoMemory. -/
def Obligations.FastRefinesDecodeOnItsPrecondition : Prop :=
  ∀ (s : State) (w w' : Bool), 1 ≤ s.inLen.toNat → s.inLen.toNat ≤ s.params.inCap →
    fastPre (s.inBytes s.inLen.toNat) = true →
    exec (.decodeFast w false) s = exec (.decode w' false) s ∧
    ∃ t, exec (.decodeFast w false) s = .next t ∧ (t.result = .ok ∨ t.result = .noMemory)

/-- R161: on a present, non-empty input that fits the buffer and does not meet FastPre, DECODE_FAST still completes. The code is OK or
NoMemory; on NoMemory OUT_LEN is 0 and OUT_BUF unchanged; on OK OUT_LEN is within OUT_CAP and every OUT_BUF byte is a draw; and nothing
else changes. The free values (log 8) are named, and no value of one is claimed. -/
def Obligations.FastOutsideItsPreconditionIsADraw : Prop :=
  ∀ (s : State) (w : Bool), s.params.wf = true → s.outcomeDrawn (.decodeFast w false) →
    ∃ t, exec (.decodeFast w false) s = .next t ∧
      ((t.result = .noMemory ∧ t.outLen = 0 ∧ t.outBuf = s.outBuf) ∨
       (t.result = .ok ∧ t.outLen.toNat ≤ s.params.outCap ∧
        ∀ i, i < s.params.outCap → t.outByte i = Config.freeByte s.draws i)) ∧
      t.busy = false ∧ t.done = true ∧ t.inBuf = s.inBuf ∧ t.inLen = s.inLen ∧ t.ign = s.ign ∧ t.cur = s.cur ∧
      t.params = s.params ∧ s.draws < t.draws

/-- R152, R119: every non-empty output of ENCODE, with any run of separators before and after it, meets FastPre. -/
def Obligations.EncodeOutputMeetsFastPre : Prop :=
  ∀ (w : Bool) (x front back : List Byte), (∀ b ∈ front, isSep b = true) → (∀ b ∈ back, isSep b = true) →
    fastPre (front ++ encodeText w x ++ back) = true

/-- R120: what ENCODE writes with OK, copied into the input buffer, both decoders turn back into the bytes that were encoded, for
every input, both W, and every pair of blocks whose buffers hold the texts. -/
def Obligations.RoundTripThroughBothDecoders : Prop :=
  ∀ (s u t : State) (w v : Bool), s.params.wf = true → t.params.wf = true → s.inLen.toNat ≤ s.params.inCap →
    exec (.encode w false) s = .next u → u.result = .ok →
    t.inLen = u.outLen → t.inBytes t.inLen.toNat = u.outBytes u.outLen.toNat →
    u.outLen.toNat ≤ t.params.inCap → s.inLen.toNat ≤ t.params.outCap →
    (∃ r, exec (.decode v false) t = .next r ∧ r.result = .ok ∧ r.outLen = s.inLen ∧
      r.outBytes r.outLen.toNat = s.inBytes s.inLen.toNat) ∧
    (∃ r, exec (.decodeFast v false) t = .next r ∧ r.result = .ok ∧ r.outLen = s.inLen ∧
      r.outBytes r.outLen.toNat = s.inBytes s.inLen.toNat)

/-! ## The bus port (20_memory.md, 10_state.md) -/

/-- R54, R185: a transaction of an illegal width or alignment gets ERROR, data 0, and has no effect; every other gets OKAY. -/
def Obligations.IllegalTransactionsHaveNoEffect : Prop :=
  ∀ (s : State) (off : Offset) (n : Width) (v : Word),
    ((off.toNat < 0x10000 ∧ ¬ (n = .word ∧ off.toNat % 4 = 0)) ∨ (0x10000 ≤ off.toNat ∧ off.toNat % n.bytes ≠ 0) →
      s.busWrite off n v = s ∧ writeResp off n = .error ∧ s.busRead off n = (.error, 0) ∧ s.afterRead off n = s) ∧
    ((off.toNat < 0x10000 ∧ n = .word ∧ off.toNat % 4 = 0) ∨ (0x10000 ≤ off.toNat ∧ off.toNat % n.bytes = 0) →
      writeResp off n = .okay ∧ (s.busRead off n).1 = .okay)

/-- What the registers read (R22 to R24, R30 to R32, R171): CMD reads 0, STATUS its three bits, IN_LEN and OUT_LEN their values, and
RESULT the number R171 gives the code: 0 OK, 1 InputDataEmpty, 2 Base64StringEmpty, 3 NoMemory, 4 Base64EncodingInvalid,
5 UnknownError. -/
def Obligations.RegistersReadTheirValues : Prop :=
  ∀ s : State, s.busRead 0x000 .word = (.okay, 0) ∧
    ((s.busRead 0x004 .word).1 = .okay ∧
      (s.busRead 0x004 .word).2.toNat = s.busy.toNat + 2 * s.done.toNat + 4 * s.ign.toNat) ∧
    s.busRead 0x008 .word = (.okay, s.inLen) ∧ s.busRead 0x00C .word = (.okay, s.outLen) ∧
    (s.result = .ok → s.busRead 0x010 .word = (.okay, 0)) ∧
    (s.result = .inputDataEmpty → s.busRead 0x010 .word = (.okay, 1)) ∧
    (s.result = .base64StringEmpty → s.busRead 0x010 .word = (.okay, 2)) ∧
    (s.result = .noMemory → s.busRead 0x010 .word = (.okay, 3)) ∧
    (s.result = .base64EncodingInvalid → s.busRead 0x010 .word = (.okay, 4)) ∧
    (s.result = .unknownError → s.busRead 0x010 .word = (.okay, 5))

/-- R33, R34: INCAP and OUTCAP read the capacities, the reserved offsets read 0; writes to either are ignored, and reset does not
change the capacities. -/
def Obligations.ConstantAndReservedRegisters : Prop :=
  ∀ (s : State) (off : Offset) (v : Word), s.params.wf = true →
    ((s.busRead 0x014 .word).1 = .okay ∧ (s.busRead 0x014 .word).2.toNat = s.params.inCap) ∧
    ((s.busRead 0x018 .word).1 = .okay ∧ (s.busRead 0x018 .word).2.toNat = s.params.outCap) ∧
    s.busWrite 0x014 .word v = s ∧ s.busWrite 0x018 .word v = s ∧ (∀ l, (s.resetBlock l).params = s.params) ∧
    (0x01C ≤ off.toNat → off.toNat < 0x10000 → off.toNat % 4 = 0 →
      s.busRead off .word = (.okay, 0) ∧ s.afterRead off .word = s ∧ writeResp off .word = .okay ∧
        s.busWrite off .word v = s)

/-- R175: a CMD write while idle latches OP, W and A, sets BUSY and clears DONE, and leaves RESULT, OUT_LEN, OUT_BUF, IN_LEN, IN_BUF
and IGN as they were. The 0 that goes with the response is the model's own (log 12). -/
def Obligations.CmdWriteStartsACommand : Prop :=
  ∀ (s : State) (v : Operand) (w : Word), s.busy = false → s.rst = false → w = s.host.operand v →
    ∃ t, s.hostStep (.store .word 0x000 v) = .next t ∧
      t.cur = { op := w.extractLsb' 0 2, w := w.getLsbD 2, a := w.getLsbD 3 } ∧ t.busy = true ∧ t.done = false ∧
      t.result = s.result ∧ t.outLen = s.outLen ∧ t.outBuf = s.outBuf ∧ t.inLen = s.inLen ∧ t.inBuf = s.inBuf ∧
      t.ign = s.ign ∧ t.params = s.params ∧ t.host.resp = some (.okay, 0)

/-- R84: a command word with any of bits 31:4 set behaves exactly as the same word with them clear. -/
def Obligations.IgnoredCommandBitsHaveNoEffect : Prop :=
  ∀ (s : State) (v : Word), s.busWrite 0x000 .word v = s.busWrite 0x000 .word (v &&& 0xF)

/-- R60: while BUSY = 1 a legal write to CMD, IN_LEN or an IN_BUF byte below IN_CAP is dropped, answers OKAY and sets IGN; a write to
STATUS is accepted; writes elsewhere have no effect, as when idle. -/
def Obligations.WritesWhileBusyAreDropped : Prop :=
  ∀ (s : State) (off : Offset) (n : Width) (v : Word), s.busy = true → legal off n = true →
    writeResp off n = .okay ∧
    s.busWrite off n v =
      if off.toNat = 0x000 ∨ off.toNat = 0x008 ∨ (0x10000 ≤ off.toNat ∧ off.toNat < 0x10000 + s.params.inCap ∧
          off.toNat < 0x20000) then { s with ign := true }
      else if off.toNat = 0x004 then { s with ign := s.ign && !v.getLsbD 2 }
      else s

/-- R27, R24: a STATUS write is accepted whether BUSY is 0 or 1, and answers OKAY. With bit 2 = 1 it clears IGN, with bit 2 = 0 it leaves
IGN as it was, and it changes nothing else, whatever its other bits are. -/
def Obligations.StatusWriteClearsIgnOnly : Prop :=
  ∀ (s : State) (v : Word), writeResp 0x004 .word = .okay ∧
    s.busWrite 0x004 .word v = { s with ign := s.ign && !v.getLsbD 2 }

/-- R27: IGN goes from 0 to 1 exactly at a dropped write, and from 1 to 0 only at a host write of STATUS with bit 2 = 1 or at
reset. -/
def Obligations.IgnStaysUntilCleared : Prop :=
  ∀ s t : State, step s = .next t →
    (s.ign = false → t.ign = true → s.busy = true ∧ ∃ n off v, s.mover = .host (.store n off v) ∧ legal off n = true ∧
      (off.toNat = 0x000 ∨ off.toNat = 0x008 ∨ (0x10000 ≤ off.toNat ∧ off.toNat < 0x10000 + s.params.inCap))) ∧
    (s.ign = true → t.ign = false → (∃ v, s.mover = .host (.store .word 0x004 v) ∧ (s.host.operand v).getLsbD 2 = true) ∨
      s.mover = .host .assertReset ∨ s.mover = .host .releaseReset)

/-- R55: multi-byte accesses to the windows are little-endian. An idle, legal write sets the bytes below IN_CAP and nothing else, and
a legal read returns the bytes, 0 at or beyond the capacity. And a legal read of the top region returns 0 and has no effect (R51). -/
def Obligations.WindowAccessesAreLittleEndian : Prop :=
  ∀ (s : State) (off : Offset) (n : Width) (i : Nat), i < 0x10000 → i % n.bytes = 0 →
    (off.toNat = 0x10000 + i → ∀ v : Word, s.busy = false →
      s.busWrite off n v = { s with inBuf := (s.busWrite off n v).inBuf } ∧
      ∀ j, (s.busWrite off n v).inByte j =
        if i ≤ j ∧ j < i + n.bytes ∧ j < s.params.inCap then v.extractLsb' (8 * (j - i)) 8 else s.inByte j) ∧
    (off.toNat = 0x10000 + i → (s.busRead off n).2.toNat < 2 ^ n.bits ∧
      ∀ k, k < n.bytes → (s.busRead off n).2.extractLsb' (8 * k) 8 =
        if i + k < s.params.inCap then s.inByte (i + k) else 0) ∧
    (off.toNat = 0x20000 + i → s.busy = false → (s.busRead off n).2.toNat < 2 ^ n.bits ∧
      ∀ k, k < n.bytes → (s.busRead off n).2.extractLsb' (8 * k) 8 =
        if i + k < s.params.outCap then s.outByte (i + k) else 0) ∧
    (off.toNat = 0x30000 + i → s.busRead off n = (.okay, 0) ∧ s.afterRead off n = s)

/-- R57: a legal write to the OUT_BUF window or the top region answers OKAY and changes nothing. -/
def Obligations.OutBufIgnoresHostWrites : Prop :=
  ∀ (s : State) (off : Offset) (n : Width) (v : Word), 0x20000 ≤ off.toNat → off.toNat % n.bytes = 0 →
    writeResp off n = .okay ∧ s.busWrite off n v = s

/-- R61: while BUSY = 1 a read of an OUT_BUF byte below OUT_CAP is a draw, and the next read draws anew; IN_BUF reads its bytes;
RESULT reads the number R171 gives the code it holds, and OUT_LEN what it holds; STATUS reads BUSY = 1 and DONE = 0. -/
def Obligations.ReadsWhileBusy : Prop :=
  ∀ (s : State) (off : Offset) (n : Width) (i : Nat), s.Inv → s.busy = true → i < 0x10000 → i % n.bytes = 0 →
    (off.toNat = 0x20000 + i → (s.busRead off n).1 = .okay ∧ (s.afterRead off n).draws = s.draws + 1 ∧
      ∀ k, k < n.bytes → (s.busRead off n).2.extractLsb' (8 * k) 8 =
        if i + k < s.params.outCap then Config.freeByte s.draws (i + k) else 0) ∧
    (off.toNat = 0x10000 + i → (s.busRead off n).1 = .okay ∧
      ∀ k, k < n.bytes → (s.busRead off n).2.extractLsb' (8 * k) 8 =
        if i + k < s.params.inCap then s.inByte (i + k) else 0) ∧
    (s.result = .ok → s.busRead 0x010 .word = (.okay, 0)) ∧
    (s.result = .inputDataEmpty → s.busRead 0x010 .word = (.okay, 1)) ∧
    (s.result = .base64StringEmpty → s.busRead 0x010 .word = (.okay, 2)) ∧
    (s.result = .noMemory → s.busRead 0x010 .word = (.okay, 3)) ∧
    (s.result = .base64EncodingInvalid → s.busRead 0x010 .word = (.okay, 4)) ∧
    (s.result = .unknownError → s.busRead 0x010 .word = (.okay, 5)) ∧
    s.busRead 0x00C .word = (.okay, s.outLen) ∧
    (s.busRead 0x004 .word).2.extractLsb' 0 2 = 0b01#2

/-- R58: a read changes nothing (but the model's own count of draws, and that only for OUT_BUF while BUSY), and only writes to CMD,
STATUS, IN_LEN and IN_BUF bytes below IN_CAP have effects. -/
def Obligations.OnlyFourKindsOfWriteHaveEffects : Prop :=
  ∀ (s : State) (off : Offset) (n : Width) (v : Word),
    s.afterRead off n = { s with draws := (s.afterRead off n).draws } ∧
    (s.busy = false ∨ off.toNat < 0x20000 ∨ 0x30000 ≤ off.toNat → s.afterRead off n = s) ∧
    (s.busWrite off n v ≠ s → legal off n = true ∧ (off.toNat = 0x000 ∨ off.toNat = 0x004 ∨ off.toNat = 0x008 ∨
      (0x10000 ≤ off.toNat ∧ off.toNat < 0x10000 + s.params.inCap ∧ off.toNat < 0x20000)))

/-- R30: an idle write to IN_LEN stores all 32 bits with no clamping, changes nothing else, and reads back. -/
def Obligations.InLenStoresAllBits : Prop :=
  ∀ (s : State) (v : Word), s.busy = false →
    s.busWrite 0x008 .word v = { s with inLen := v } ∧ (s.busWrite 0x008 .word v).busRead 0x008 .word = (.okay, v)

/-! ## The whole machine -/

/-- R25, R26: BUSY is set by a CMD write that starts a command and cleared by the completion and reset, and by nothing else; DONE is
set by the completion and cleared by a start and reset, and by nothing else. That a `releaseReset` step clears both where the reset
input is not asserted is the model's choice (log 11). -/
def Obligations.BusyAndDoneChangeOnlyAtStartAndCompletion : Prop :=
  ∀ s t : State, step s = .next t →
    (s.mover = .engine → t.busy = false ∧ t.done = true) ∧
    (∀ v, s.busy = false → s.mover = .host (.store .word 0x000 v) → t.busy = true ∧ t.done = false) ∧
    (s.mover = .host .assertReset ∨ s.mover = .host .releaseReset → t.busy = false ∧ t.done = false) ∧
    (t.busy = s.busy ∧ t.done = s.done ∨ s.mover = .engine ∨
      (s.busy = false ∧ ∃ v, s.mover = .host (.store .word 0x000 v)) ∨
      s.mover = .host .assertReset ∨ s.mover = .host .releaseReset)

/-- R29, R31, R32, R63, R196: RESULT, OUT_LEN and OUT_BUF change at a completion and at reset only, so they stay from a completion
until the next one. -/
def Obligations.OutcomeChangesOnlyAtCompletion : Prop :=
  ∀ s t : State, step s = .next t → s.mover ≠ .engine → s.mover ≠ .host .assertReset → s.mover ≠ .host .releaseReset →
    t.result = s.result ∧ t.outLen = s.outLen ∧ t.outBuf = s.outBuf ∧ t.params = s.params

/-- R60, R35, R28: while a command runs no host step but reset can change the latched command, IN_LEN, a byte of IN_BUF or BUSY; and a
completion changes none of the first three. -/
def Obligations.InputIsStableWhileBusy : Prop :=
  ∀ s t : State, step s = .next t → s.busy = true → s.mover ≠ .host .assertReset → s.mover ≠ .host .releaseReset →
    t.cur = s.cur ∧ t.inLen = s.inLen ∧ t.inBuf = s.inBuf ∧ (t.busy = true ∨ s.mover = .engine)

/-- A step runs the decoded command (R176, R86): while BUSY = 1, when no host step is left before the completion or the host has none,
a step is `exec` of the command that CUR holds, at that state; CUR holds the command of the word that was written to CMD; and while
BUSY = 0 the engine has no step. -/
def Obligations.StepRunsTheLatchedCommand : Prop :=
  (∀ s : State, s.busy = true → (s.slack = 0 ∨ s.host.nextOp = none) → step s = exec s.cur.instr s) ∧
  (∀ (s : State) (v : Word), (s.start v).cur.instr = decodeWord v) ∧
  (∀ (s : State) (w : Nat), w < 2 ^ 32 →
    step (s.withFetchWord 32 w) = exec (decodeWord (BitVec.ofNat 32 w)) (s.withFetchWord 32 w)) ∧
  (∀ s : State, s.busy = false → s.mover ≠ .engine)

/-- R190 to R192: reset, at either level of its input, abandons a running command and leaves the state right after reset, in every
block; the machine's own reset state is such a state. That a release of an input that is not asserted resets too is the model's
(log 11). -/
def Obligations.ResetLeavesTheResetState : Prop :=
  (∀ (s : State) (l : Bool), ∃ t,
    s.hostStep (if l then .assertReset else .releaseReset) = .next t ∧ t.rst = l ∧ t.busy = false ∧ t.done = false ∧
    t.ign = false ∧ t.inLen = 0 ∧ t.outLen = 0 ∧ t.result = .ok ∧ t.params = s.params) ∧
  (∀ p : Params, (State.resetWith p).busy = false ∧ (State.resetWith p).done = false ∧ (State.resetWith p).ign = false ∧
    (State.resetWith p).inLen = 0 ∧ (State.resetWith p).outLen = 0 ∧ (State.resetWith p).result = .ok ∧
    (State.resetWith p).params = p) ∧
  State.reset = State.resetWith Config.params

/-- The model's choice (log 11, from R192 and U7): a bus transaction while reset is asserted, a READOUT's among them, is refused under
its own name. -/
def Obligations.TransactionsDuringResetAreRefused : Prop :=
  ∀ (s : State) (n : Width) (off : Offset) (v : Operand) (r : Nat), s.rst = true →
    s.hostStep (.store n off v) = .refused .transactionInReset ∧ s.hostStep (.load n off r) = .refused .transactionInReset ∧
    ∀ o, s.hostStep (.readOut r o) = .refused .transactionInReset

/-- R96: a load puts the data of its transaction in its variable and no other, a store has the whole effect of its bus write, a branch
moves the host's place, and the first step of a READOUT (R97) loads OUT_LEN and brings as many byte loads; each moves the host on,
and changes nothing else. `slack`, which every host step counts down, a branch's too, and a start sets (log 5, log 13), the 0 that
goes with the response of a write (log 12), and `pending` (log 14) are the model's own. -/
def Obligations.HostScriptSteps : Prop :=
  ∀ s : State, s.rst = false →
    (∀ (n : Width) (off : Offset) (r : Nat), ∃ t, s.hostStep (.load n off r) = .next t ∧
      t = { s.afterRead off n with slack := s.slack - 1, host := t.host } ∧
      t.host = { s.host.advance with vars := t.host.vars, resp := some (s.busRead off n) } ∧
      t.host.getVar r = (s.busRead off n).2 ∧ ∀ q, q ≠ r → t.host.getVar q = s.host.getVar q) ∧
    (∀ (n : Width) (off : Offset) (v : Operand), ∃ t, s.hostStep (.store n off v) = .next t ∧
      t = { s.busWrite off n (s.host.operand v) with
        slack := if s.busy = false ∧ legal off n = true ∧ off.toNat = 0x000 then s.nextLatency else s.slack - 1
        host := { s.host.advance with resp := some (writeResp off n, 0) } }) ∧
    (∀ (r : Nat) (m : Word) (l : Nat), s.hostStep (.bnz r m l) = .next { s with
      slack := s.slack - 1
      host := { s.host.advance with pos := if s.host.getVar r &&& m ≠ 0 then l else s.host.advance.pos } }) ∧
    (∀ len o : Nat, ∃ t, s.hostStep (.readOut len o) = .next t ∧ t = { s with slack := s.slack - 1, host := t.host } ∧
      t.host = { s.host.advance with
        vars := t.host.vars
        pending := Script.outLoads o s.outLen.toNat ++ s.host.advance.pending
        resp := some (.okay, s.outLen) } ∧
      t.host.getVar len = s.outLen ∧ ∀ q, q ≠ len → t.host.getVar q = s.host.getVar q) ∧
    (s.host.pending = [] → s.host.advance = { s.host with pos := s.host.pos + 1 }) ∧
    (∀ op ops, s.host.pending = op :: ops → s.host.advance = { s.host with pending := ops })

/-- R97, R194: a LOADIN of `bs` that stands at the host's place, whatever stands before and after it in the script, takes |bs| + 1
steps on an idle block. It leaves `bs[i]` in `In(i)` for each i < |bs| below IN_CAP, the bytes at or beyond IN_CAP dropped (R55), and |bs|
in IN_LEN; it changes no other byte and nothing else of the block, and the host stands after it, its variables as they were. The
length is at most 65536, that of the IN_BUF window (R51). `slack` (log 5) and the 0 of the last response (log 12) are the model's own. -/
def Obligations.LoadInPlacesTheInput : Prop :=
  ∀ (s : State) (bs : List Byte) (pre post : List HostOp), s.params.wf = true → s.busy = false → s.rst = false →
    s.host.prog = pre ++ Script.loadIn bs ++ post → s.host.pos = pre.length → s.host.pending = [] → bs.length ≤ 65536 →
    ∃ t : State, Sys2Proof.core.run (bs.length + 1) s = .next t ∧
      t.inLen.toNat = bs.length ∧ (bs.length ≤ s.params.inCap → t.inBytes bs.length = bs) ∧
      (∀ j, t.inByte j = if j < bs.length ∧ j < s.params.inCap then bs.getD j 0 else s.inByte j) ∧
      t = { s with
        inLen := t.inLen
        inBuf := t.inBuf
        slack := s.slack - (bs.length + 1)
        host := { s.host with pos := pre.length + (bs.length + 1), resp := some (.okay, 0) } }

/-- R97: a WAIT that stands at the host's place, whatever stands before and after it, reads STATUS into `st` and then goes on after it
when BUSY was 0, and back to its own first step when BUSY was 1; it changes no other variable and nothing of the block. While BUSY = 1
the completion may fall between the steps (R180), so the two steps are the host's where `slack`, the model's own (log 5, log 13), leaves
room for both. -/
def Obligations.WaitPollsStatus : Prop :=
  ∀ (s : State) (st : Nat) (pre post : List HostOp), s.rst = false → (s.busy = true → 2 ≤ s.slack) →
    s.host.prog = pre ++ Script.waitAt pre.length st ++ post → s.host.pos = pre.length → s.host.pending = [] →
    ∃ t : State, Sys2Proof.core.run 2 s = .next t ∧
      t.host.getVar st = (s.busRead 0x004 .word).2 ∧ (∀ q, q ≠ st → t.host.getVar q = s.host.getVar q) ∧
      t = { s with
        slack := s.slack - 2
        host := { s.host with
          pos := if s.busy then pre.length else pre.length + 2
          vars := t.host.vars
          resp := some (s.busRead 0x004 .word) } }

/-- R97: a READOUT that an idle block's host makes takes OUT_LEN + 1 steps, one transaction each. It leaves OUT_LEN in its variable
`len`, where that is none of the `o[i]`, and `Out(i)` in `o[i]`, the variable `o + i` (log 14), for each i < OUT_LEN; it changes no other
variable and nothing of the block, and the host goes on after it. -/
def Obligations.ReadOutReadsTheOutput : Prop :=
  ∀ (s : State) (len o : Nat), s.params.wf = true → s.outLen.toNat ≤ s.params.outCap → s.busy = false → s.rst = false →
    s.host.nextOp = some (.readOut len o) →
    ∃ t : State, Sys2Proof.core.run (s.outLen.toNat + 1) s = .next t ∧
      (¬ (o ≤ len ∧ len < o + s.outLen.toNat) → t.host.getVar len = s.outLen) ∧
      (∀ i, i < s.outLen.toNat → t.host.getVar (o + i) = (s.outByte i).setWidth 32) ∧
      (∀ q, q ≠ len → ¬ (o ≤ q ∧ q < o + s.outLen.toNat) → t.host.getVar q = s.host.getVar q) ∧
      t = { s with slack := s.slack - (s.outLen.toNat + 1), host := t.host } ∧
      t.host.prog = s.host.prog ∧ t.host.pos = s.host.advance.pos ∧ t.host.pending = s.host.advance.pending

/-- R201: every started command completes unless reset intervenes. From a state in which a command runs, after at most `slack` host
steps either the engine is about to complete that command, on the input it was started with, and does so, or reset has come. The
count of host steps, `slack`, and the engine's turn at 0 are the model's own (log 5, log 6). -/
def Obligations.StartedCommandsComplete : Prop :=
  ∀ s : State, s.busy = true → s.rst = false →
    ∃ (k : Nat) (u : State), k ≤ s.slack ∧ Sys2Proof.core.run k s = .next u ∧
      ((u.mover = .engine ∧ u.cur = s.cur ∧ u.inLen = s.inLen ∧ u.inBuf = s.inBuf ∧
          ∃ t, step u = .next t ∧ t.busy = false ∧ t.done = true) ∨
        u.mover = .host .assertReset ∨ u.mover = .host .releaseReset)

/-- The invariant of Safety.lean holds right after reset, in every block with legal capacities. -/
def Obligations.InvariantHoldsAfterReset : Prop :=
  State.reset.Inv ∧ (∀ p : Params, p.wf = true → (State.resetWith p).Inv) ∧
  (∀ (s : State) (l : Bool), s.Inv → (s.resetBlock l).Inv)

/-- Every step keeps the invariant of Safety.lean (R7, R24, R28, R29, R31, R190): from every state that meets it, not only those a run
reaches. -/
def Obligations.EveryStepKeepsTheInvariant : Prop :=
  ∀ s t : State, s.Inv → step s = .next t → t.Inv
end

