-- ==== Sys2Proof/Laws/State.lean ====
section
/-! SUPPORT. One lemma per field of State per update: what each named update leaves in each field. -/

namespace Sys2Proof.Machine

/-! ## After the start of a command (R175) -/

@[simp] theorem State.start_params (s : State) (w : Word) : (s.start w).params = s.params := rfl
@[simp] theorem State.start_busy (s : State) (w : Word) : (s.start w).busy = true := rfl
@[simp] theorem State.start_done (s : State) (w : Word) : (s.start w).done = false := rfl
@[simp] theorem State.start_ign (s : State) (w : Word) : (s.start w).ign = s.ign := rfl
@[simp] theorem State.start_inLen (s : State) (w : Word) : (s.start w).inLen = s.inLen := rfl
@[simp] theorem State.start_outLen (s : State) (w : Word) : (s.start w).outLen = s.outLen := rfl
@[simp] theorem State.start_result (s : State) (w : Word) : (s.start w).result = s.result := rfl
@[simp] theorem State.start_cur (s : State) (w : Word) : (s.start w).cur = latch w := rfl
@[simp] theorem State.start_inBuf (s : State) (w : Word) : (s.start w).inBuf = s.inBuf := rfl
@[simp] theorem State.start_outBuf (s : State) (w : Word) : (s.start w).outBuf = s.outBuf := rfl
@[simp] theorem State.start_rst (s : State) (w : Word) : (s.start w).rst = s.rst := rfl
@[simp] theorem State.start_slack (s : State) (w : Word) : (s.start w).slack = s.nextLatency := rfl
@[simp] theorem State.start_latencies (s : State) (w : Word) : (s.start w).latencies = s.latencies.tail := rfl
@[simp] theorem State.start_draws (s : State) (w : Word) : (s.start w).draws = if s.latencies.isEmpty then s.draws + 1 else s.draws := rfl
@[simp] theorem State.start_host (s : State) (w : Word) : (s.start w).host = s.host := rfl

/-! ## After a completion (R176) -/

@[simp] theorem State.finish_params (s : State) (c : Code) (n : Nat) (bs : List Byte) : (s.finish c n bs).params = s.params := rfl
@[simp] theorem State.finish_busy (s : State) (c : Code) (n : Nat) (bs : List Byte) : (s.finish c n bs).busy = false := rfl
@[simp] theorem State.finish_done (s : State) (c : Code) (n : Nat) (bs : List Byte) : (s.finish c n bs).done = true := rfl
@[simp] theorem State.finish_ign (s : State) (c : Code) (n : Nat) (bs : List Byte) : (s.finish c n bs).ign = s.ign := rfl
@[simp] theorem State.finish_inLen (s : State) (c : Code) (n : Nat) (bs : List Byte) : (s.finish c n bs).inLen = s.inLen := rfl
@[simp] theorem State.finish_outLen (s : State) (c : Code) (n : Nat) (bs : List Byte) : (s.finish c n bs).outLen = if c = .ok then BitVec.ofNat 32 n else 0 := rfl
@[simp] theorem State.finish_result (s : State) (c : Code) (n : Nat) (bs : List Byte) : (s.finish c n bs).result = c := rfl
@[simp] theorem State.finish_cur (s : State) (c : Code) (n : Nat) (bs : List Byte) : (s.finish c n bs).cur = s.cur := rfl
@[simp] theorem State.finish_inBuf (s : State) (c : Code) (n : Nat) (bs : List Byte) : (s.finish c n bs).inBuf = s.inBuf := rfl
@[simp] theorem State.finish_outBuf (s : State) (c : Code) (n : Nat) (bs : List Byte) : (s.finish c n bs).outBuf = if c = .ok then s.outBuf.writeAll 0 (bs.take n) else s.outBuf := rfl
@[simp] theorem State.finish_rst (s : State) (c : Code) (n : Nat) (bs : List Byte) : (s.finish c n bs).rst = s.rst := rfl
@[simp] theorem State.finish_slack (s : State) (c : Code) (n : Nat) (bs : List Byte) : (s.finish c n bs).slack = 0 := rfl
@[simp] theorem State.finish_latencies (s : State) (c : Code) (n : Nat) (bs : List Byte) : (s.finish c n bs).latencies = s.latencies := rfl
@[simp] theorem State.finish_draws (s : State) (c : Code) (n : Nat) (bs : List Byte) : (s.finish c n bs).draws = s.draws := rfl
@[simp] theorem State.finish_host (s : State) (c : Code) (n : Nat) (bs : List Byte) : (s.finish c n bs).host = s.host := rfl

/-! ## After reset (R190) -/

@[simp] theorem State.resetBlock_params (s : State) (l : Bool) : (s.resetBlock l).params = s.params := rfl
@[simp] theorem State.resetBlock_busy (s : State) (l : Bool) : (s.resetBlock l).busy = false := rfl
@[simp] theorem State.resetBlock_done (s : State) (l : Bool) : (s.resetBlock l).done = false := rfl
@[simp] theorem State.resetBlock_ign (s : State) (l : Bool) : (s.resetBlock l).ign = false := rfl
@[simp] theorem State.resetBlock_inLen (s : State) (l : Bool) : (s.resetBlock l).inLen = 0 := rfl
@[simp] theorem State.resetBlock_outLen (s : State) (l : Bool) : (s.resetBlock l).outLen = 0 := rfl
@[simp] theorem State.resetBlock_result (s : State) (l : Bool) : (s.resetBlock l).result = .ok := rfl
@[simp] theorem State.resetBlock_cur (s : State) (l : Bool) : (s.resetBlock l).cur = { op := 0, w := false, a := false } := rfl
@[simp] theorem State.resetBlock_inBuf (s : State) (l : Bool) : (s.resetBlock l).inBuf = { fill := s.draws, cells := [] } := rfl
@[simp] theorem State.resetBlock_outBuf (s : State) (l : Bool) : (s.resetBlock l).outBuf = { fill := s.draws + 1, cells := [] } := rfl
@[simp] theorem State.resetBlock_rst (s : State) (l : Bool) : (s.resetBlock l).rst = l := rfl
@[simp] theorem State.resetBlock_slack (s : State) (l : Bool) : (s.resetBlock l).slack = 0 := rfl
@[simp] theorem State.resetBlock_latencies (s : State) (l : Bool) : (s.resetBlock l).latencies = s.latencies := rfl
@[simp] theorem State.resetBlock_draws (s : State) (l : Bool) : (s.resetBlock l).draws = s.draws + 2 := rfl
@[simp] theorem State.resetBlock_host (s : State) (l : Bool) : (s.resetBlock l).host = s.host := rfl

/-! ## After a dropped write (R60) -/

@[simp] theorem State.dropWrite_params (s : State) : (s.dropWrite).params = s.params := rfl
@[simp] theorem State.dropWrite_busy (s : State) : (s.dropWrite).busy = s.busy := rfl
@[simp] theorem State.dropWrite_done (s : State) : (s.dropWrite).done = s.done := rfl
@[simp] theorem State.dropWrite_ign (s : State) : (s.dropWrite).ign = true := rfl
@[simp] theorem State.dropWrite_inLen (s : State) : (s.dropWrite).inLen = s.inLen := rfl
@[simp] theorem State.dropWrite_outLen (s : State) : (s.dropWrite).outLen = s.outLen := rfl
@[simp] theorem State.dropWrite_result (s : State) : (s.dropWrite).result = s.result := rfl
@[simp] theorem State.dropWrite_cur (s : State) : (s.dropWrite).cur = s.cur := rfl
@[simp] theorem State.dropWrite_inBuf (s : State) : (s.dropWrite).inBuf = s.inBuf := rfl
@[simp] theorem State.dropWrite_outBuf (s : State) : (s.dropWrite).outBuf = s.outBuf := rfl
@[simp] theorem State.dropWrite_rst (s : State) : (s.dropWrite).rst = s.rst := rfl
@[simp] theorem State.dropWrite_slack (s : State) : (s.dropWrite).slack = s.slack := rfl
@[simp] theorem State.dropWrite_latencies (s : State) : (s.dropWrite).latencies = s.latencies := rfl
@[simp] theorem State.dropWrite_draws (s : State) : (s.dropWrite).draws = s.draws := rfl
@[simp] theorem State.dropWrite_host (s : State) : (s.dropWrite).host = s.host := rfl

/-! ## After the turn of a host step -/

@[simp] theorem State.hostTurn_params (s : State) : (s.hostTurn).params = s.params := rfl
@[simp] theorem State.hostTurn_busy (s : State) : (s.hostTurn).busy = s.busy := rfl
@[simp] theorem State.hostTurn_done (s : State) : (s.hostTurn).done = s.done := rfl
@[simp] theorem State.hostTurn_ign (s : State) : (s.hostTurn).ign = s.ign := rfl
@[simp] theorem State.hostTurn_inLen (s : State) : (s.hostTurn).inLen = s.inLen := rfl
@[simp] theorem State.hostTurn_outLen (s : State) : (s.hostTurn).outLen = s.outLen := rfl
@[simp] theorem State.hostTurn_result (s : State) : (s.hostTurn).result = s.result := rfl
@[simp] theorem State.hostTurn_cur (s : State) : (s.hostTurn).cur = s.cur := rfl
@[simp] theorem State.hostTurn_inBuf (s : State) : (s.hostTurn).inBuf = s.inBuf := rfl
@[simp] theorem State.hostTurn_outBuf (s : State) : (s.hostTurn).outBuf = s.outBuf := rfl
@[simp] theorem State.hostTurn_rst (s : State) : (s.hostTurn).rst = s.rst := rfl
@[simp] theorem State.hostTurn_slack (s : State) : (s.hostTurn).slack = s.slack - 1 := rfl
@[simp] theorem State.hostTurn_latencies (s : State) : (s.hostTurn).latencies = s.latencies := rfl
@[simp] theorem State.hostTurn_draws (s : State) : (s.hostTurn).draws = s.draws := rfl
@[simp] theorem State.hostTurn_host (s : State) : (s.hostTurn).host = s.host.advance := rfl

/-! ## After the answer to a transaction -/

@[simp] theorem State.answered_params (s : State) (r : Resp) (d : Word) : (s.answered r d).params = s.params := rfl
@[simp] theorem State.answered_busy (s : State) (r : Resp) (d : Word) : (s.answered r d).busy = s.busy := rfl
@[simp] theorem State.answered_done (s : State) (r : Resp) (d : Word) : (s.answered r d).done = s.done := rfl
@[simp] theorem State.answered_ign (s : State) (r : Resp) (d : Word) : (s.answered r d).ign = s.ign := rfl
@[simp] theorem State.answered_inLen (s : State) (r : Resp) (d : Word) : (s.answered r d).inLen = s.inLen := rfl
@[simp] theorem State.answered_outLen (s : State) (r : Resp) (d : Word) : (s.answered r d).outLen = s.outLen := rfl
@[simp] theorem State.answered_result (s : State) (r : Resp) (d : Word) : (s.answered r d).result = s.result := rfl
@[simp] theorem State.answered_cur (s : State) (r : Resp) (d : Word) : (s.answered r d).cur = s.cur := rfl
@[simp] theorem State.answered_inBuf (s : State) (r : Resp) (d : Word) : (s.answered r d).inBuf = s.inBuf := rfl
@[simp] theorem State.answered_outBuf (s : State) (r : Resp) (d : Word) : (s.answered r d).outBuf = s.outBuf := rfl
@[simp] theorem State.answered_rst (s : State) (r : Resp) (d : Word) : (s.answered r d).rst = s.rst := rfl
@[simp] theorem State.answered_slack (s : State) (r : Resp) (d : Word) : (s.answered r d).slack = s.slack := rfl
@[simp] theorem State.answered_latencies (s : State) (r : Resp) (d : Word) : (s.answered r d).latencies = s.latencies := rfl
@[simp] theorem State.answered_draws (s : State) (r : Resp) (d : Word) : (s.answered r d).draws = s.draws := rfl
@[simp] theorem State.answered_host (s : State) (r : Resp) (d : Word) : (s.answered r d).host = { s.host with resp := some (r, d) } := rfl

/-! ## After an end without output (R177) -/

@[simp] theorem State.endedEmpty_params (s : State) (c : Code) : (s.endedEmpty c).params = s.params := rfl
@[simp] theorem State.endedEmpty_busy (s : State) (c : Code) : (s.endedEmpty c).busy = false := rfl
@[simp] theorem State.endedEmpty_done (s : State) (c : Code) : (s.endedEmpty c).done = true := rfl
@[simp] theorem State.endedEmpty_ign (s : State) (c : Code) : (s.endedEmpty c).ign = s.ign := rfl
@[simp] theorem State.endedEmpty_inLen (s : State) (c : Code) : (s.endedEmpty c).inLen = s.inLen := rfl
@[simp] theorem State.endedEmpty_outLen (s : State) (c : Code) : (s.endedEmpty c).outLen = 0 := rfl
@[simp] theorem State.endedEmpty_result (s : State) (c : Code) : (s.endedEmpty c).result = c := rfl
@[simp] theorem State.endedEmpty_cur (s : State) (c : Code) : (s.endedEmpty c).cur = s.cur := rfl
@[simp] theorem State.endedEmpty_inBuf (s : State) (c : Code) : (s.endedEmpty c).inBuf = s.inBuf := rfl
@[simp] theorem State.endedEmpty_outBuf (s : State) (c : Code) : (s.endedEmpty c).outBuf = s.outBuf := rfl
@[simp] theorem State.endedEmpty_rst (s : State) (c : Code) : (s.endedEmpty c).rst = s.rst := rfl
@[simp] theorem State.endedEmpty_slack (s : State) (c : Code) : (s.endedEmpty c).slack = 0 := rfl
@[simp] theorem State.endedEmpty_latencies (s : State) (c : Code) : (s.endedEmpty c).latencies = s.latencies := rfl
@[simp] theorem State.endedEmpty_draws (s : State) (c : Code) : (s.endedEmpty c).draws = s.draws := rfl
@[simp] theorem State.endedEmpty_host (s : State) (c : Code) : (s.endedEmpty c).host = s.host := rfl

/-! ## After the command placed for the engine -/

@[simp] theorem State.withFetchWord_params (s : State) (k w : Nat) : (s.withFetchWord k w).params = s.params := rfl
@[simp] theorem State.withFetchWord_busy (s : State) (k w : Nat) : (s.withFetchWord k w).busy = true := rfl
@[simp] theorem State.withFetchWord_done (s : State) (k w : Nat) : (s.withFetchWord k w).done = false := rfl
@[simp] theorem State.withFetchWord_ign (s : State) (k w : Nat) : (s.withFetchWord k w).ign = s.ign := rfl
@[simp] theorem State.withFetchWord_inLen (s : State) (k w : Nat) : (s.withFetchWord k w).inLen = s.inLen := rfl
@[simp] theorem State.withFetchWord_outLen (s : State) (k w : Nat) : (s.withFetchWord k w).outLen = s.outLen := rfl
@[simp] theorem State.withFetchWord_result (s : State) (k w : Nat) : (s.withFetchWord k w).result = s.result := rfl
@[simp] theorem State.withFetchWord_cur (s : State) (k w : Nat) : (s.withFetchWord k w).cur = latch (BitVec.ofNat 32 (w % 2 ^ k)) := rfl
@[simp] theorem State.withFetchWord_inBuf (s : State) (k w : Nat) : (s.withFetchWord k w).inBuf = s.inBuf := rfl
@[simp] theorem State.withFetchWord_outBuf (s : State) (k w : Nat) : (s.withFetchWord k w).outBuf = s.outBuf := rfl
@[simp] theorem State.withFetchWord_rst (s : State) (k w : Nat) : (s.withFetchWord k w).rst = s.rst := rfl
@[simp] theorem State.withFetchWord_slack (s : State) (k w : Nat) : (s.withFetchWord k w).slack = 0 := rfl
@[simp] theorem State.withFetchWord_latencies (s : State) (k w : Nat) : (s.withFetchWord k w).latencies = s.latencies := rfl
@[simp] theorem State.withFetchWord_draws (s : State) (k w : Nat) : (s.withFetchWord k w).draws = s.draws := rfl
@[simp] theorem State.withFetchWord_host (s : State) (k w : Nat) : (s.withFetchWord k w).host = s.host := rfl

/-! ## After a write to STATUS (R27) -/

@[simp] theorem State.writeStatus_params (s : State) (v : Word) : (s.writeStatus v).params = s.params := by
  unfold State.writeStatus; split <;> rfl
@[simp] theorem State.writeStatus_busy (s : State) (v : Word) : (s.writeStatus v).busy = s.busy := by
  unfold State.writeStatus; split <;> rfl
@[simp] theorem State.writeStatus_done (s : State) (v : Word) : (s.writeStatus v).done = s.done := by
  unfold State.writeStatus; split <;> rfl
@[simp] theorem State.writeStatus_inLen (s : State) (v : Word) : (s.writeStatus v).inLen = s.inLen := by
  unfold State.writeStatus; split <;> rfl
@[simp] theorem State.writeStatus_outLen (s : State) (v : Word) : (s.writeStatus v).outLen = s.outLen := by
  unfold State.writeStatus; split <;> rfl
@[simp] theorem State.writeStatus_result (s : State) (v : Word) : (s.writeStatus v).result = s.result := by
  unfold State.writeStatus; split <;> rfl
@[simp] theorem State.writeStatus_cur (s : State) (v : Word) : (s.writeStatus v).cur = s.cur := by
  unfold State.writeStatus; split <;> rfl
@[simp] theorem State.writeStatus_inBuf (s : State) (v : Word) : (s.writeStatus v).inBuf = s.inBuf := by
  unfold State.writeStatus; split <;> rfl
@[simp] theorem State.writeStatus_outBuf (s : State) (v : Word) : (s.writeStatus v).outBuf = s.outBuf := by
  unfold State.writeStatus; split <;> rfl
@[simp] theorem State.writeStatus_rst (s : State) (v : Word) : (s.writeStatus v).rst = s.rst := by
  unfold State.writeStatus; split <;> rfl
@[simp] theorem State.writeStatus_slack (s : State) (v : Word) : (s.writeStatus v).slack = s.slack := by
  unfold State.writeStatus; split <;> rfl
@[simp] theorem State.writeStatus_latencies (s : State) (v : Word) : (s.writeStatus v).latencies = s.latencies := by
  unfold State.writeStatus; split <;> rfl
@[simp] theorem State.writeStatus_draws (s : State) (v : Word) : (s.writeStatus v).draws = s.draws := by
  unfold State.writeStatus; split <;> rfl
@[simp] theorem State.writeStatus_host (s : State) (v : Word) : (s.writeStatus v).host = s.host := by
  unfold State.writeStatus; split <;> rfl

/-! ## After a read (R58) -/

@[simp] theorem State.afterRead_params (s : State) (off : Offset) (n : Width) : (s.afterRead off n).params = s.params := by
  unfold State.afterRead; split <;> rfl
@[simp] theorem State.afterRead_busy (s : State) (off : Offset) (n : Width) : (s.afterRead off n).busy = s.busy := by
  unfold State.afterRead; split <;> rfl
@[simp] theorem State.afterRead_done (s : State) (off : Offset) (n : Width) : (s.afterRead off n).done = s.done := by
  unfold State.afterRead; split <;> rfl
@[simp] theorem State.afterRead_ign (s : State) (off : Offset) (n : Width) : (s.afterRead off n).ign = s.ign := by
  unfold State.afterRead; split <;> rfl
@[simp] theorem State.afterRead_inLen (s : State) (off : Offset) (n : Width) : (s.afterRead off n).inLen = s.inLen := by
  unfold State.afterRead; split <;> rfl
@[simp] theorem State.afterRead_outLen (s : State) (off : Offset) (n : Width) : (s.afterRead off n).outLen = s.outLen := by
  unfold State.afterRead; split <;> rfl
@[simp] theorem State.afterRead_result (s : State) (off : Offset) (n : Width) : (s.afterRead off n).result = s.result := by
  unfold State.afterRead; split <;> rfl
@[simp] theorem State.afterRead_cur (s : State) (off : Offset) (n : Width) : (s.afterRead off n).cur = s.cur := by
  unfold State.afterRead; split <;> rfl
@[simp] theorem State.afterRead_inBuf (s : State) (off : Offset) (n : Width) : (s.afterRead off n).inBuf = s.inBuf := by
  unfold State.afterRead; split <;> rfl
@[simp] theorem State.afterRead_outBuf (s : State) (off : Offset) (n : Width) : (s.afterRead off n).outBuf = s.outBuf := by
  unfold State.afterRead; split <;> rfl
@[simp] theorem State.afterRead_rst (s : State) (off : Offset) (n : Width) : (s.afterRead off n).rst = s.rst := by
  unfold State.afterRead; split <;> rfl
@[simp] theorem State.afterRead_slack (s : State) (off : Offset) (n : Width) : (s.afterRead off n).slack = s.slack := by
  unfold State.afterRead; split <;> rfl
@[simp] theorem State.afterRead_latencies (s : State) (off : Offset) (n : Width) : (s.afterRead off n).latencies = s.latencies := by
  unfold State.afterRead; split <;> rfl
@[simp] theorem State.afterRead_host (s : State) (off : Offset) (n : Width) : (s.afterRead off n).host = s.host := by
  unfold State.afterRead; split <;> rfl

/-! ## After a branch of the host (R96) -/

@[simp] theorem State.hostBranch_params (s : State) (r : Nat) (m : Word) (l : Nat) : (s.hostBranch r m l).params = s.params := by
  unfold State.hostBranch; split <;> rfl
@[simp] theorem State.hostBranch_busy (s : State) (r : Nat) (m : Word) (l : Nat) : (s.hostBranch r m l).busy = s.busy := by
  unfold State.hostBranch; split <;> rfl
@[simp] theorem State.hostBranch_done (s : State) (r : Nat) (m : Word) (l : Nat) : (s.hostBranch r m l).done = s.done := by
  unfold State.hostBranch; split <;> rfl
@[simp] theorem State.hostBranch_ign (s : State) (r : Nat) (m : Word) (l : Nat) : (s.hostBranch r m l).ign = s.ign := by
  unfold State.hostBranch; split <;> rfl
@[simp] theorem State.hostBranch_inLen (s : State) (r : Nat) (m : Word) (l : Nat) : (s.hostBranch r m l).inLen = s.inLen := by
  unfold State.hostBranch; split <;> rfl
@[simp] theorem State.hostBranch_outLen (s : State) (r : Nat) (m : Word) (l : Nat) : (s.hostBranch r m l).outLen = s.outLen := by
  unfold State.hostBranch; split <;> rfl
@[simp] theorem State.hostBranch_result (s : State) (r : Nat) (m : Word) (l : Nat) : (s.hostBranch r m l).result = s.result := by
  unfold State.hostBranch; split <;> rfl
@[simp] theorem State.hostBranch_cur (s : State) (r : Nat) (m : Word) (l : Nat) : (s.hostBranch r m l).cur = s.cur := by
  unfold State.hostBranch; split <;> rfl
@[simp] theorem State.hostBranch_inBuf (s : State) (r : Nat) (m : Word) (l : Nat) : (s.hostBranch r m l).inBuf = s.inBuf := by
  unfold State.hostBranch; split <;> rfl
@[simp] theorem State.hostBranch_outBuf (s : State) (r : Nat) (m : Word) (l : Nat) : (s.hostBranch r m l).outBuf = s.outBuf := by
  unfold State.hostBranch; split <;> rfl
@[simp] theorem State.hostBranch_rst (s : State) (r : Nat) (m : Word) (l : Nat) : (s.hostBranch r m l).rst = s.rst := by
  unfold State.hostBranch; split <;> rfl
@[simp] theorem State.hostBranch_slack (s : State) (r : Nat) (m : Word) (l : Nat) : (s.hostBranch r m l).slack = s.slack := by
  unfold State.hostBranch; split <;> rfl
@[simp] theorem State.hostBranch_latencies (s : State) (r : Nat) (m : Word) (l : Nat) : (s.hostBranch r m l).latencies = s.latencies := by
  unfold State.hostBranch; split <;> rfl
@[simp] theorem State.hostBranch_draws (s : State) (r : Nat) (m : Word) (l : Nat) : (s.hostBranch r m l).draws = s.draws := by
  unfold State.hostBranch; split <;> rfl

@[simp] theorem State.writeStatus_ign (s : State) (v : Word) : (s.writeStatus v).ign = (s.ign && !v.getLsbD 2) := by
  unfold State.writeStatus; split <;> simp_all

@[simp] theorem State.afterRead_draws (s : State) (off : Offset) (n : Width) :
    (s.afterRead off n).draws = if s.readDraws off n then s.draws + 1 else s.draws := by
  unfold State.afterRead; split <;> rfl

/-- A branch moves the host's place and nothing else. -/
theorem State.hostBranch_host (s : State) (r : Nat) (m : Word) (l : Nat) :
    (s.hostBranch r m l).host = { s.host with pos := if s.host.getVar r &&& m ≠ 0 then l else s.host.pos } := by
  unfold State.hostBranch; split <;> rfl

end Sys2Proof.Machine
end

