-- ==== Sys2Proof/Laws/Memory.lean ====
section
/-! SUPPORT. The laws of cells and buffers: a read after a write, and that every operation keeps the canonical form. -/

namespace Sys2Proof.Machine

variable {α : Type}

/-! ## Cells -/

@[simp] theorem cellsRead_nil (a : Nat) : cellsRead ([] : List (Nat × α)) a = none := rfl

/-- A read of the key just written gives the value written. -/
@[simp] theorem cellsRead_write_same (m : List (Nat × α)) (a : Nat) (v : α) : cellsRead (cellsWrite m a v) a = some v := by
  induction m with
  | nil => simp [cellsWrite, cellsRead]
  | cons c m ih =>
    obtain ⟨k, u⟩ := c
    simp only [cellsWrite]
    split
    · simp [cellsRead]
    · split
      · simp [cellsRead]
      · next h1 h2 => simp [cellsRead, Ne.symm h2, ih]

/-- A write leaves every other key alone. -/
theorem cellsRead_write_ne (m : List (Nat × α)) {a b : Nat} (v : α) (h : b ≠ a) :
    cellsRead (cellsWrite m a v) b = cellsRead m b := by
  induction m with
  | nil => simp [cellsWrite, cellsRead, Ne.symm h]
  | cons c m ih =>
    obtain ⟨k, u⟩ := c
    simp only [cellsWrite]
    split
    · simp [cellsRead, Ne.symm h]
    · split
      · next h2 => subst h2; simp [cellsRead, Ne.symm h]
      · simp [cellsRead, ih]

/-- The cells after a write are the one written and some of those before. -/
theorem mem_cellsWrite {m : List (Nat × α)} {a : Nat} {v : α} {c : Nat × α} (h : c ∈ cellsWrite m a v) :
    c = (a, v) ∨ c ∈ m := by
  induction m with
  | nil => simpa [cellsWrite] using h
  | cons d m ih =>
    obtain ⟨k, u⟩ := d
    simp only [cellsWrite] at h
    split at h
    · simpa using h
    · split at h
      · rcases List.mem_cons.mp h with h | h
        · exact .inl h
        · exact .inr (List.mem_cons_of_mem _ h)
      · rcases List.mem_cons.mp h with h | h
        · exact .inr (h ▸ List.mem_cons_self)
        · exact (ih h).imp_right (List.mem_cons_of_mem _)

/-- A write keeps the canonical form. -/
theorem cellsWrite_wf {m : List (Nat × α)} (a : Nat) (v : α) (h : cellsWf m) : cellsWf (cellsWrite m a v) := by
  induction m with
  | nil => simp [cellsWf, cellsWrite]
  | cons c m ih =>
    obtain ⟨k, u⟩ := c
    have hk : ∀ x ∈ m, k < x.1 := by simpa [cellsWf] using (List.pairwise_cons.mp h).1
    have hm : cellsWf m := (List.pairwise_cons.mp h).2
    simp only [cellsWrite]
    split
    · next hlt =>
      refine List.pairwise_cons.mpr ⟨?_, h⟩
      simp only [List.map_cons, List.mem_cons, List.mem_map, forall_eq_or_imp]
      exact ⟨hlt, fun _ ⟨x, hx, e⟩ => e ▸ hlt.trans (hk x hx)⟩
    · split
      · next he => subst he; exact List.pairwise_cons.mpr (List.pairwise_cons.mp h)
      · next h1 h2 =>
        refine List.pairwise_cons.mpr ⟨?_, ih hm⟩
        simp only [List.mem_map]
        rintro _ ⟨x, hx, rfl⟩
        rcases mem_cellsWrite hx with rfl | hx
        · show k < a
          omega
        · exact hk x hx

/-! ## Writing a run of bytes -/

/-- A run of bytes written keeps the canonical form of memory. -/
theorem Memory.writeAll_wf {m : Memory} (i : Nat) (bs : List Byte) (h : Memory.wf m) : Memory.wf (Memory.writeAll m i bs) := by
  induction bs generalizing m i with
  | nil => exact h
  | cons b bs ih => exact ih (i + 1) (cellsWrite_wf i b h)

/-- What memory lists after a run of bytes has been written: inside the run its byte, elsewhere what it listed before. -/
theorem Memory.read_writeAll (m : Memory) (i j : Nat) (bs : List Byte) :
    cellsRead (Memory.writeAll m i bs) j =
      if i ≤ j ∧ j < i + bs.length then some (bs.getD (j - i) 0) else cellsRead m j := by
  induction bs generalizing m i with
  | nil => simp [Memory.writeAll]
  | cons b bs ih =>
    rw [Memory.writeAll, ih]
    rcases Nat.lt_trichotomy j i with hlt | rfl | hgt
    · rw [if_neg (by omega), if_neg (by omega), cellsRead_write_ne _ _ (by omega)]
    · rw [if_neg (by omega), if_pos (by simp)]; simp
    · have e : j - i = (j - (i + 1)) + 1 := by omega
      by_cases h : j < i + 1 + bs.length
      · rw [if_pos ⟨by omega, h⟩, if_pos (by simp; omega), e]; simp
      · rw [if_neg (by omega), if_neg (by simp; omega), cellsRead_write_ne _ _ (by omega)]

/-- Every cell after a run of bytes has been written is of the run or was there before. -/
theorem Memory.mem_writeAll {m : Memory} {i : Nat} {bs : List Byte} {c : Host.Cell} (h : c ∈ Memory.writeAll m i bs) :
    (i ≤ c.1 ∧ c.1 < i + bs.length) ∨ c ∈ m := by
  induction bs generalizing m i with
  | nil => exact .inr h
  | cons b bs ih =>
    rcases ih h with h | h
    · exact .inl (by simp; omega)
    · rcases mem_cellsWrite h with rfl | h
      · exact .inl (by simp)
      · exact .inr h

/-! ## Buffers -/

@[simp] theorem Buffer.writeAll_fill (b : Buffer) (i : Nat) (bs : List Byte) : (b.writeAll i bs).fill = b.fill := rfl

@[simp] theorem Buffer.writeAll_nil (b : Buffer) (i : Nat) : b.writeAll i [] = b := rfl

/-- A buffer nothing has been written to reads as the free bytes of its fill. -/
@[simp] theorem Buffer.read_empty (k i : Nat) : ({ fill := k, cells := [] } : Buffer).read i = Config.freeByte k i := rfl

/-- What a buffer reads after a run of bytes has been written. -/
theorem Buffer.read_writeAll (b : Buffer) (i j : Nat) (bs : List Byte) :
    (b.writeAll i bs).read j = if i ≤ j ∧ j < i + bs.length then bs.getD (j - i) 0 else b.read j := by
  unfold Buffer.read Buffer.writeAll
  rw [Memory.read_writeAll]
  split <;> rfl

/-- A run of bytes inside the capacity keeps a buffer in order. -/
theorem Buffer.writeAll_ok {b : Buffer} {cap draws : Nat} (h : b.Ok cap draws) {i : Nat} {bs : List Byte}
    (hfit : bs = [] ∨ i + bs.length ≤ cap) : (b.writeAll i bs).Ok cap draws where
  canonical := Memory.writeAll_wf i bs h.canonical
  inside := fun c hc => by
    rcases hfit with rfl | hfit
    · exact h.inside c hc
    · rcases Memory.mem_writeAll hc with hc | hc
      · omega
      · exact h.inside c hc
  drawn := h.drawn

/-- A buffer in order stays so as further values are drawn. -/
theorem Buffer.Ok.mono {b : Buffer} {cap d d' : Nat} (h : b.Ok cap d) (hd : d ≤ d') : b.Ok cap d' :=
  ⟨h.canonical, h.inside, lt_of_lt_of_le h.drawn hd⟩

/-- A buffer filled by a draw is in order. -/
theorem Buffer.ok_empty {k cap draws : Nat} (h : k < draws) : ({ fill := k, cells := [] } : Buffer).Ok cap draws :=
  ⟨List.Pairwise.nil, by simp, h⟩

/-! ## Host-side variables -/

@[simp] theorem HostState.getVar_setVar_same (h : HostState) (r : Nat) (v : Word) : (h.setVar r v).getVar r = v := by
  simp [HostState.getVar, HostState.setVar]

theorem HostState.getVar_setVar_ne (h : HostState) {r q : Nat} (v : Word) (hq : q ≠ r) :
    (h.setVar r v).getVar q = h.getVar q := by
  simp [HostState.getVar, HostState.setVar, cellsRead_write_ne _ _ hq]

@[simp] theorem HostState.setVar_prog (h : HostState) (r : Nat) (v : Word) : (h.setVar r v).prog = h.prog := rfl

@[simp] theorem HostState.setVar_pos (h : HostState) (r : Nat) (v : Word) : (h.setVar r v).pos = h.pos := rfl

@[simp] theorem HostState.setVar_pending (h : HostState) (r : Nat) (v : Word) : (h.setVar r v).pending = h.pending := rfl

@[simp] theorem HostState.setVar_resp (h : HostState) (r : Nat) (v : Word) : (h.setVar r v).resp = h.resp := rfl

/-! ## The host's place (R96, R97) -/

@[simp] theorem HostState.advance_prog (h : HostState) : h.advance.prog = h.prog := rfl

@[simp] theorem HostState.advance_vars (h : HostState) : h.advance.vars = h.vars := rfl

@[simp] theorem HostState.advance_resp (h : HostState) : h.advance.resp = h.resp := rfl

@[simp] theorem HostState.advance_getVar (h : HostState) (r : Nat) : h.advance.getVar r = h.getVar r := rfl

@[simp] theorem HostState.advance_operand (h : HostState) (v : Operand) : h.advance.operand v = h.operand v := by
  cases v <;> rfl

/-- With nothing pending the host goes on in its script. -/
theorem HostState.advance_nil {h : HostState} (hp : h.pending = []) : h.advance = { h with pos := h.pos + 1 } := by
  obtain ⟨prog, pos, pending, vars, resp⟩ := h
  cases hp; rfl

/-- With a step pending the host's place in the script stays. -/
theorem HostState.advance_cons {h : HostState} {op : HostOp} {ops : List HostOp} (hp : h.pending = op :: ops) :
    h.advance = { h with pending := ops } := by
  obtain ⟨prog, pos, pending, vars, resp⟩ := h
  cases hp; rfl

/-- With nothing pending the next step is the one at the host's place. -/
theorem HostState.nextOp_nil {h : HostState} (hp : h.pending = []) : h.nextOp = h.prog[h.pos]? := by
  unfold HostState.nextOp; rw [hp]

/-- A pending step comes first. -/
theorem HostState.nextOp_cons {h : HostState} {op : HostOp} {ops : List HostOp} (hp : h.pending = op :: ops) :
    h.nextOp = some op := by
  unfold HostState.nextOp; rw [hp]

end Sys2Proof.Machine
end

