-- ==== Sys2Proof/Laws/Ops.lean ====
section
/-! SUPPORT. One lemma per shared operation that says once everything it can do: the checks of a command, its completion, a host
write, a host step, and a step of the machine. -/

namespace Sys2Proof.Machine

/-! ## Evaluating a command -/

/-- Everything the common checks can answer (R172 steps 2 to 4). -/
theorem State.checked_cases (s : State) (a : Bool) (c : Code) (op : Nat → List Byte → Completion) :
    (a = true ∧ s.checked a c op = .finish c 0 []) ∨
    (a = false ∧ s.params.inCap < s.inLen.toNat ∧ s.checked a c op = .finish .unknownError 0 []) ∨
    (a = false ∧ s.inLen.toNat = 0 ∧ s.checked a c op = .finish .ok 0 []) ∨
    (a = false ∧ 1 ≤ s.inLen.toNat ∧ s.inLen.toNat ≤ s.params.inCap ∧
      s.checked a c op = op s.params.outCap (s.inBytes s.inLen.toNat)) := by
  unfold State.checked
  cases a
  · by_cases h1 : s.params.inCap < s.inLen.toNat
    · exact .inr (.inl ⟨rfl, h1, by simp [h1]⟩)
    · by_cases h2 : s.inLen.toNat = 0
      · exact .inr (.inr (.inl ⟨rfl, h2, by simp [h2]⟩))
      · exact .inr (.inr (.inr ⟨rfl, by omega, by omega, by simp only [Bool.false_eq_true, if_false, if_neg h1, if_neg h2]⟩))
  · exact .inl ⟨rfl, rfl⟩

/-- Present, non-empty input that fits the buffer reaches the operation itself. -/
theorem State.checked_run {s : State} (h1 : 1 ≤ s.inLen.toNat) (h2 : s.inLen.toNat ≤ s.params.inCap) (c : Code)
    (op : Nat → List Byte → Completion) :
    s.checked false c op = op s.params.outCap (s.inBytes s.inLen.toNat) := by
  unfold State.checked
  rw [if_neg (by simp), if_neg (by omega), if_neg (by omega)]

/-- Absent input answers its code before anything is looked at (R172 step 2). -/
@[simp] theorem State.checked_absent (s : State) (c : Code) (op : Nat → List Byte → Completion) :
    s.checked true c op = .finish c 0 [] := rfl

/-- A present input longer than IN_CAP (R172 step 3). -/
theorem State.checked_tooLong {s : State} (h : s.params.inCap < s.inLen.toNat) (c : Code)
    (op : Nat → List Byte → Completion) : s.checked false c op = .finish .unknownError 0 [] := by
  unfold State.checked
  rw [if_neg (by simp), if_pos h]

/-- A present input of length 0 (R172 step 4). -/
theorem State.checked_empty {s : State} (h : s.inLen.toNat = 0) (c : Code) (op : Nat → List Byte → Completion) :
    s.checked false c op = .finish .ok 0 [] := by
  unfold State.checked
  rw [if_neg (by simp), if_neg (by omega), if_pos h]

/-- Everything the last check can answer (R172 steps 7 and 8). -/
theorem fitted_cases (outCap len : Nat) (bs : List Byte) :
    (outCap < len ∧ fitted outCap len bs = .finish .noMemory 0 []) ∨
    (len ≤ outCap ∧ fitted outCap len bs = .finish .ok len bs) := by
  unfold fitted
  by_cases h : outCap < len
  · exact .inl ⟨h, if_pos h⟩
  · exact .inr ⟨by omega, if_neg h⟩

@[simp] theorem State.inBytes_length (s : State) (n : Nat) : (s.inBytes n).length = n := by simp [State.inBytes]

@[simp] theorem State.outBytes_length (s : State) (n : Nat) : (s.outBytes n).length = n := by simp [State.outBytes]

/-! ## Completing it -/

@[simp] theorem State.complete_finish (s : State) (c : Code) (n : Nat) (bs : List Byte) :
    s.complete (.finish c n bs) = s.finish c n bs := rfl

@[simp] theorem State.complete_draw (s : State) : s.complete .draw = s.finishDraw := rfl

/-- A completion that records an error, or an empty output, writes no byte (R177). -/
theorem State.finish_nil (s : State) (c : Code) : s.finish c 0 [] = s.endedEmpty c := by
  cases c <;> rfl

/-- What OUT_BUF reads after a completion: on OK the first `n` computed bytes, else what it read before (R68, R177). -/
theorem State.finish_outByte (s : State) (c : Code) (n i : Nat) (bs : List Byte) :
    (s.finish c n bs).outByte i =
      if c = .ok ∧ i < (bs.take n).length then bs.getD i 0 else s.outByte i := by
  unfold State.outByte
  rw [State.finish_outBuf]
  by_cases h : c = .ok
  · rw [if_pos h, Buffer.read_writeAll]
    by_cases h2 : i < (bs.take n).length
    · rw [if_pos ⟨by omega, by omega⟩, if_pos ⟨h, h2⟩]
      have : i < n := by simp at h2; omega
      simp [List.getD_eq_getElem?_getD, this]
    · rw [if_neg (by omega), if_neg (by simp_all)]
  · rw [if_neg h, if_neg (by simp [h])]

/-- Everything the draw of R161 can leave. -/
theorem State.finishDraw_cases (s : State) :
    s.finishDraw = { s.endedEmpty .noMemory with draws := s.draws + 1 } ∨
    s.finishDraw = { s with
      outBuf := { fill := s.draws, cells := [] }
      result := .ok
      outLen := BitVec.ofNat 32 (Config.freeLen s.draws % (s.params.outCap + 1))
      busy   := false
      done   := true
      slack  := 0
      draws  := s.draws + 1 } := by
  unfold State.finishDraw
  split
  · exact .inr rfl
  · exact .inl rfl

/-- A completion of any kind touches only STATUS.BUSY, STATUS.DONE, RESULT, OUT_LEN, OUT_BUF and the model's own counters (R176). -/
theorem State.complete_frame (s : State) (r : Completion) :
    (s.complete r).params = s.params ∧ (s.complete r).ign = s.ign ∧ (s.complete r).inLen = s.inLen ∧
    (s.complete r).cur = s.cur ∧ (s.complete r).inBuf = s.inBuf ∧ (s.complete r).rst = s.rst ∧
    (s.complete r).latencies = s.latencies ∧ (s.complete r).host = s.host ∧
    (s.complete r).busy = false ∧ (s.complete r).done = true := by
  cases r with
  | finish c n bs => exact ⟨rfl, rfl, rfl, rfl, rfl, rfl, rfl, rfl, rfl, rfl⟩
  | draw =>
    rw [State.complete_draw]
    rcases s.finishDraw_cases with h | h <;> rw [h] <;> exact ⟨rfl, rfl, rfl, rfl, rfl, rfl, rfl, rfl, rfl, rfl⟩

/-- Every command ends in one completion. -/
theorem exec_eq_complete (i : Instr) (s : State) : ∃ r, exec i s = .next (s.complete r) := by
  cases i <;> exact ⟨_, rfl⟩

/-! ## The host -/

/-- The region and place of an offset below 0x10000 (R51). -/
theorem region_regs {off : Offset} (h : off.toNat < 0x10000) : region off = .regs ∧ place off = off.toNat :=
  ⟨if_pos h, Nat.mod_eq_of_lt h⟩

/-- The region and place of an offset of the IN_BUF window (R51). -/
theorem region_inWindow {off : Offset} {i : Nat} (hi : i < 0x10000) (h : off.toNat = 0x10000 + i) :
    region off = .inWindow ∧ place off = i := by
  unfold region place
  rw [if_neg (by omega), if_pos (by omega)]
  exact ⟨rfl, by omega⟩

/-- The region and place of an offset of the OUT_BUF window (R51). -/
theorem region_outWindow {off : Offset} {i : Nat} (hi : i < 0x10000) (h : off.toNat = 0x20000 + i) :
    region off = .outWindow ∧ place off = i := by
  unfold region place
  rw [if_neg (by omega), if_neg (by omega), if_pos (by omega)]
  exact ⟨rfl, by omega⟩

/-- Everything a host write can do (R58): nothing, be dropped, start a command, clear IGN, set IN_LEN, or write IN_BUF bytes. -/
theorem State.busWrite_cases (s : State) (off : Offset) (n : Width) (v : Word) :
    s.busWrite off n v = s ∨
    (s.busy = true ∧ s.busWrite off n v = s.dropWrite) ∨
    (s.busy = false ∧ legal off n = true ∧ off.toNat = 0 ∧ s.busWrite off n v = s.start v) ∨
    (legal off n = true ∧ off.toNat = 4 ∧ s.busWrite off n v = s.writeStatus v) ∨
    (s.busy = false ∧ s.busWrite off n v = { s with inLen := v }) ∨
    (s.busy = false ∧ ∃ i bs, (bs = [] ∨ i + bs.length ≤ s.params.inCap) ∧
      s.busWrite off n v = { s with inBuf := s.inBuf.writeAll i bs }) := by
  unfold State.busWrite
  by_cases hl : legal off n = true
  · rw [if_pos hl]
    unfold region
    by_cases h0 : off.toNat < 0x10000
    · have hp : place off = off.toNat := Nat.mod_eq_of_lt h0
      simp only [if_pos h0]
      unfold State.writeReg State.writeCmd State.writeInLen
      rw [hp]
      by_cases c0 : off.toNat = 0
      · rw [if_pos c0]
        cases hb : s.busy
        · exact .inr (.inr (.inl ⟨rfl, hl, c0, by simp⟩))
        · exact .inr (.inl ⟨rfl, by simp⟩)
      · rw [if_neg c0]
        by_cases c4 : off.toNat = 4
        · rw [if_pos c4]; exact .inr (.inr (.inr (.inl ⟨hl, c4, rfl⟩)))
        · rw [if_neg c4]
          by_cases c8 : off.toNat = 8
          · rw [if_pos c8]
            cases hb : s.busy
            · exact .inr (.inr (.inr (.inr (.inl ⟨rfl, by simp⟩))))
            · exact .inr (.inl ⟨rfl, by simp⟩)
          · rw [if_neg c8]; exact .inl rfl
    · simp only [if_neg h0]
      by_cases h1 : off.toNat < 0x20000
      · simp only [if_pos h1]
        unfold State.writeInWindow
        cases hb : s.busy
        · refine .inr (.inr (.inr (.inr (.inr ⟨rfl, place off, (leBytes n v).take (s.params.inCap - place off), ?_, by simp⟩))))
          by_cases hf : place off < s.params.inCap
          · right; simp; omega
          · left; rw [Nat.sub_eq_zero_of_le (by omega)]; rfl
        · by_cases hf : place off < s.params.inCap
          · exact .inr (.inl ⟨rfl, by simp [hf]⟩)
          · exact .inl (by simp [hf])
      · by_cases h2 : off.toNat < 0x30000 <;> simp [h1, h2]
  · exact .inl (if_neg hl)

/-- The region of an offset of the top region (R51). -/
theorem region_top {off : Offset} (h : 0x30000 ≤ off.toNat) : region off = .top := by
  unfold region
  rw [if_neg (by omega), if_neg (by omega), if_neg (by omega)]

/-- A read leaves the state as it was, but for the model's own count of draws (R58). -/
theorem State.afterRead_eq (s : State) (off : Offset) (n : Width) :
    s.afterRead off n = { s with draws := (s.afterRead off n).draws } := by
  unfold State.afterRead; split <;> rfl

/-- A load changes the host's own state, and else what its read does (R58, R96). -/
theorem State.hostLoad_eq (s : State) (n : Width) (off : Offset) (r : Nat) :
    s.hostLoad n off r = { s.afterRead off n with host := { s.host.setVar r (s.busRead off n).2 with resp := some (s.busRead off n) } } := by
  simp [State.hostLoad, State.answered, HostState.setVar]

/-- A read of a register takes no draw (R58, R61). -/
theorem State.afterRead_regs (s : State) {off : Offset} (n : Width) (h : off.toNat < 0x10000) : s.afterRead off n = s := by
  simp [State.afterRead, State.readDraws, (region_regs h).1]

/-- A legal read of OUT_LEN (R31). -/
theorem State.busRead_outLen (s : State) : s.busRead 0x00C .word = (.okay, s.outLen) := by
  simp [State.busRead, State.readData, State.readReg, legal, region, place]

/-- The first step of a READOUT changes the host's own state alone: OUT_LEN goes to its variable, and as many byte loads are
the host's next steps (R97). -/
theorem State.hostReadOut_eq (s : State) (len o : Nat) :
    s.hostReadOut len o = { s with host := { s.host.setVar len s.outLen with
      pending := Script.outLoads o s.outLen.toNat ++ s.host.pending, resp := some (.okay, s.outLen) } } := by
  unfold State.hostReadOut
  rw [State.hostLoad_eq, s.busRead_outLen, s.afterRead_regs .word (by decide)]
  rfl

/-- Everything a host step can do (R96, R190). -/
theorem State.hostStep_cases {s t : State} {op : HostOp} (h : s.hostStep op = .next t) :
    (∃ n off v, op = .store n off v ∧ s.rst = false ∧ t = s.hostTurn.hostStore n off v) ∨
    (∃ n off r, op = .load n off r ∧ s.rst = false ∧ t = s.hostTurn.hostLoad n off r) ∨
    (∃ r m l, op = .bnz r m l ∧ t = s.hostTurn.hostBranch r m l) ∨
    (∃ len o, op = .readOut len o ∧ s.rst = false ∧ t = s.hostTurn.hostReadOut len o) ∨
    (op = .assertReset ∧ t = s.hostTurn.resetBlock true) ∨
    (op = .releaseReset ∧ t = s.hostTurn.resetBlock false) := by
  cases op with
  | store n off v =>
    simp only [State.hostStep] at h
    split at h
    · cases h
    · next hr => cases h; exact .inl ⟨n, off, v, rfl, by simpa using hr, rfl⟩
  | load n off r =>
    simp only [State.hostStep] at h
    split at h
    · cases h
    · next hr => cases h; exact .inr (.inl ⟨n, off, r, rfl, by simpa using hr, rfl⟩)
  | bnz r m l => cases h; exact .inr (.inr (.inl ⟨r, m, l, rfl, rfl⟩))
  | readOut len o =>
    simp only [State.hostStep] at h
    split at h
    · cases h
    · next hr => cases h; exact .inr (.inr (.inr (.inl ⟨len, o, rfl, by simpa using hr, rfl⟩)))
  | assertReset => cases h; exact .inr (.inr (.inr (.inr (.inl ⟨rfl, rfl⟩))))
  | releaseReset => cases h; exact .inr (.inr (.inr (.inr (.inr ⟨rfl, rfl⟩))))

/-! ## A step of the machine -/

/-- Everything a step can do: the engine completes the latched command, the host makes a step of its script, or the block
idles (R6, R176). -/
theorem step_cases {s t : State} (h : step s = .next t) :
    (s.mover = .engine ∧ s.busy = true ∧ exec s.cur.instr s = .next t) ∨
    (∃ op, s.mover = .host op ∧ s.host.nextOp = some op ∧ s.hostStep op = .next t) ∨
    (s.mover = .idle ∧ s.busy = false ∧ t = s) := by
  unfold step at h
  cases hm : s.mover with
  | engine =>
    rw [hm] at h
    refine .inl ⟨rfl, ?_, h⟩
    unfold State.mover at hm
    split at hm
    · split at hm <;> simp_all
    · split at hm <;> simp_all
  | host op =>
    rw [hm] at h
    refine .inr (.inl ⟨op, rfl, ?_, h⟩)
    unfold State.mover at hm
    split at hm
    · split at hm <;> simp_all
    · split at hm <;> simp_all
  | idle =>
    rw [hm] at h
    cases h
    refine .inr (.inr ⟨rfl, ?_, rfl⟩)
    unfold State.mover at hm
    split at hm
    · split at hm <;> simp_all
    · split at hm <;> simp_all

/-- While BUSY = 0 the host makes its next step, if it has one. -/
theorem step_host_idle {s : State} {op : HostOp} (hb : s.busy = false) (hn : s.host.nextOp = some op) :
    step s = s.hostStep op := by
  simp [step, State.mover, hb, hn]

/-- A run of `k + 1` steps whose first answers `next` is that step and a run of `k`. -/
theorem core_run_succ {k : Nat} {s t : State} (h : step s = .next t) :
    Sys2Proof.core.run (k + 1) s = Sys2Proof.core.run k t := by
  simp only [Host.Core.run, show Sys2Proof.core.step s = .next t from h]

/-- A run of `j` steps that answers `next`, and then a run of `k`, is a run of `j + k`. -/
theorem core_run_add {j k : Nat} {s t : State} (h : Sys2Proof.core.run j s = .next t) :
    Sys2Proof.core.run (j + k) s = Sys2Proof.core.run k t := by
  induction j generalizing s with
  | zero => cases h; rw [Nat.zero_add]
  | succ j ih =>
    rw [Nat.add_right_comm]
    cases hs : step s with
    | next u => rw [core_run_succ hs] at h ⊢; exact ih h
    | fault r => simp [Host.Core.run, show Sys2Proof.core.step s = .fault r from hs] at h
    | refused r => simp [Host.Core.run, show Sys2Proof.core.step s = .refused r from hs] at h

/-- With nothing pending the host's next step is the one that stands at its place, whatever stands before and after it. -/
theorem HostState.nextOp_at {h : HostState} {pre post : List HostOp} {op : HostOp} (hp : h.prog = pre ++ op :: post)
    (hpos : h.pos = pre.length) (hn : h.pending = []) : h.nextOp = some op := by
  rw [HostState.nextOp_nil hn, hp, hpos]; simp

/-- A LOADIN has one store for each byte (R97). -/
@[simp] theorem Script.loadBytes_length (i : Nat) (bs : List Byte) : (Script.loadBytes i bs).length = bs.length := by
  induction bs generalizing i with
  | nil => rfl
  | cons b bs ih => simp [Script.loadBytes, ih]

/-- The engine has no step while BUSY = 0 (R176). -/
theorem State.mover_ne_engine {s : State} (h : s.busy = false) : s.mover ≠ .engine := by
  unfold State.mover
  split
  · simp [h]
  · simp [h]

end Sys2Proof.Machine
end

