-- ==== Sys2Proof/Laws/PerInstr.lean ====
section
/-! SUPPORT. Statements about every command as syntax, one lemma per constructor: the family RowOf, that a command's word is of the
command's own row of the opcode table (R86). -/

namespace Sys2Proof.Laws.RowOf

/-- The word of a command is of the row that carries the command's mnemonic. -/
def Statement (i : Instr) : Prop :=
  ∃ r ∈ opcodeTable, r.mnemonic = i.mnemonic ∧ Sys2Proof.encode i &&& r.mask = r.fixed

theorem encode (w a : Bool) : Statement (.encode w a) :=
  ⟨⟨"ENCODE", 0x0, 0x3⟩, by decide, rfl, by cases w <;> cases a <;> decide⟩

theorem decode (w a : Bool) : Statement (.decode w a) :=
  ⟨⟨"DECODE", 0x1, 0x3⟩, by decide, rfl, by cases w <;> cases a <;> decide⟩

theorem decodeFast (w a : Bool) : Statement (.decodeFast w a) :=
  ⟨⟨"DECODE_FAST", 0x2, 0x3⟩, by decide, rfl, by cases w <;> cases a <;> decide⟩

theorem reserved (w a : Bool) : Statement (.reserved w a) :=
  ⟨⟨"RESERVED", 0x3, 0x3⟩, by decide, rfl, by cases w <;> cases a <;> decide⟩

end Sys2Proof.Laws.RowOf
end

