-- ==== Sys2Proof/Tests/Slice0.lean ====
section
/-! SUPPORT. The model's own tests: words written out from the encodings, ill-formed terms, the spec's worked vectors on single
steps, and for each statement with hypotheses a witness that meets them. Expected results come from spec/ (the vector's id or
the rule stands in each comment). -/

namespace Sys2Proof.Tests

open Sys2Proof Sys2Proof.Machine

/-! ## Helpers -/

/-- A block with the given capacities, a command running and the engine's turn, and the given bytes as input. -/
def input (x : List Byte) (inCap : Nat := 256) (outCap : Nat := 256) : State :=
  { State.resetWith { inCap := inCap, outCap := outCap } with
    inBuf := { fill := 0, cells := Memory.writeAll [] 0 x }, inLen := BitVec.ofNat 32 x.length, busy := true }

/-- The code, OUT_LEN and output bytes a step leaves. -/
def outcome (r : Host.Outcome State Fault Refusal) : Option (Nat × Nat × List Byte) :=
  match r with
  | .next t => some (t.result.toNat, t.outLen.toNat, t.outBytes t.outLen.toNat)
  | .fault _ => none
  | .refused _ => none

/-- An idle block whose host is about to make one step. -/
def hostAt (op : HostOp) : State :=
  { State.resetWith { inCap := 256, outCap := 256 } with host := { prog := [op], pos := 0, pending := [], vars := [], resp := none } }

/-- A running command, with the host about to make one step before the completion. -/
def busyHostAt (op : HostOp) : State := { hostAt op with busy := true, slack := 1 }

/-- A block whose OUT_BUF of two bytes the output "fo" fills, with the host about to read it out (P4). -/
def hostReadingOut : State :=
  { State.resetWith { inCap := 256, outCap := 2 } with
    outBuf := { fill := 1, cells := [(0, 0x66), (1, 0x6F)] }, outLen := 2, done := true
    host := { prog := Script.readOut 0 1, pos := 0, pending := [], vars := [], resp := none } }

/-- The same block after the first step of the READOUT. -/
def afterReadOut : State := hostReadingOut.hostTurn.hostReadOut 0 1

/-! ## Encodings -/

/-- R80, R81: xxxxxxxxxxxxxxxxxxxxxxxxxxxxAWoo with OP = 00, W = 1, A = 0. -/
theorem test_word_encode : decodeWord 0b00000000000000000000000000000100#32 = .encode true false := by decide
/-- R80, R81: OP = 01, W = 0, A = 1. -/
theorem test_word_decode : decodeWord 0b00000000000000000000000000001001#32 = .decode false true := by decide
/-- R80, R81: OP = 10, W = 0, A = 1. -/
theorem test_word_decode_fast : decodeWord 0b00000000000000000000000000001010#32 = .decodeFast false true := by decide
/-- R80, R85: OP = 11, W = 1, A = 0, bits 31:4 set. -/
theorem test_word_reserved : decodeWord 0b11111111111111111111111111110111#32 = .reserved true false := by decide
/-- R97: the words of the pseudo-instructions. -/
theorem test_pseudo_words :
    encode (.encode false false) = 0x0 ∧ encode (.encode true false) = 0x4 ∧ encode (.encode false true) = 0x8 ∧
    encode (.encode true true) = 0xC ∧ encode (.decode false false) = 0x1 ∧ encode (.decode false true) = 0x9 ∧
    encode (.decodeFast false false) = 0x2 ∧ encode (.decodeFast false true) = 0xA := by decide
/-- The host's reading of a table word. -/
theorem test_table_word : decodeTableWord 32 0xFFFFFFF6 = some (.decodeFast true false) := by decide
/-- R80: there is no shorter command word. -/
theorem test_decode_short : decode [0x01, 0x00, 0x00] = .error (.short 3) := by rfl

/-! ## Well-formedness: an ill-formed term for each check -/

/-- R7: a capacity of 0, or above 65536. -/
theorem test_params_ill_formed :
    Params.wf { inCap := 0, outCap := 256 } = false ∧ Params.wf { inCap := 65537, outCap := 256 } = false ∧
    Params.wf { inCap := 256, outCap := 0 } = false ∧ Params.wf { inCap := 256, outCap := 65537 } = false ∧
    Params.wf { inCap := 65536, outCap := 1 } = true := by decide
/-- R53: a number that does not fit the transaction; R96: a label outside the script. -/
theorem test_script_ill_formed :
    scriptWf [.store .byte 0x10000 (.imm 0x100)] = false ∧ scriptWf [.store .half 0x10000 (.imm 0x10000)] = false ∧
    scriptWf [.bnz 0 0x1 2] = false ∧ scriptWf (Script.readOut 1 1) = false ∧
    scriptWf (Script.loadIn [0x66] ++ Script.waitAt 2 0) = true := by decide
/-- R86: no command is ill-formed. -/
theorem test_instr_wf (i : Instr) : i.wf = true := by cases i <;> rfl

/-! ## The ROMs -/

/-- V-TAB-1 to V-TAB-6. -/
theorem test_table :
    [0x41, 0x5A, 0x61, 0x7A, 0x30, 0x39, 0x2B, 0x2F].map table =
      [some 0, some 25, some 26, some 51, some 52, some 61, some 62, some 63] ∧
    ([0x3D, 0x0D, 0x0A, 0x20, 0x2C, 0x80, 0xFF, 0x00].all fun b => table b == none) ∧
    [0x3D, 0x0D, 0x41, 0x80].map isSep = [false, true, false, true] := by decide
/-- V-TAB-7. -/
theorem test_alpha :
    [0, 25, 26, 51, 52, 61, 62, 63].map alpha = [0x41, 0x5A, 0x61, 0x7A, 0x30, 0x39, 0x2B, 0x2F] := by decide

/-! ## Commands, one completion each -/

/-- V-ENC-2: "fooba". -/
theorem test_encode_two_left :
    outcome (exec (.encode false false) (input [0x66, 0x6F, 0x6F, 0x62, 0x61])) =
      some (0, 8, [0x5A, 0x6D, 0x39, 0x76, 0x59, 0x6D, 0x45, 0x3D]) := by decide
/-- V-WRAP-4: B(114), W = 1: 154 characters, CR LF at 76 and none at the end. -/
theorem test_encode_wrap :
    (outcome (exec (.encode true false) (input ((List.range 114).map (BitVec.ofNat 8))))).map
      (fun r => (r.1, r.2.1, r.2.2.getD 76 0, r.2.2.getD 77 0, r.2.2.drop 148)) =
      some (0, 154, 0x0D, 0x0A, [0x31, 0x75, 0x62, 0x33, 0x42, 0x78]) := by decide +kernel
/-- V-DEC-8: "Zg==Zg==". -/
theorem test_decode_padding_inside :
    outcome (exec (.decode false false) (input [0x5A, 0x67, 0x3D, 0x3D, 0x5A, 0x67, 0x3D, 0x3D])) =
      some (0, 4, [0x66, 0x00, 0x00, 0x66]) := by decide
/-- V-DEC-19: "=Zg=". -/
theorem test_decode_leading_padding :
    outcome (exec (.decode true false) (input [0x3D, 0x5A, 0x67, 0x3D])) = some (0, 2, [0x01, 0x98]) := by decide
/-- V-FAST-6: "\t\tZm9vYmFy\r\n". -/
theorem test_decode_fast_trim :
    outcome (exec (.decodeFast false false)
      (input [0x09, 0x09, 0x5A, 0x6D, 0x39, 0x76, 0x59, 0x6D, 0x46, 0x79, 0x0D, 0x0A])) =
      some (0, 6, [0x66, 0x6F, 0x6F, 0x62, 0x61, 0x72]) := by decide
/-- V-FAST-9: a space, then the wrapped text of B(58). -/
theorem test_decode_fast_wrapped :
    outcome (exec (.decodeFast false false) (input (0x20 :: encodeText true ((List.range 58).map (BitVec.ofNat 8))))) =
      some (0, 58, (List.range 58).map (BitVec.ofNat 8)) := by decide +kernel
/-- V-CMD-2: OP = 3 with A = 1. -/
theorem test_reserved : outcome (exec (.reserved false true) (input [0x66])) = some (5, 0, []) := by decide
/-- V-FAST-13 to V-FAST-21: none of these texts meets FastPre. -/
theorem test_not_fast_pre :
    ([[0x5A, 0x6D, 0x39, 0x76, 0x0D, 0x0A, 0x59, 0x6D, 0x46, 0x79], [0x5A, 0x67, 0x3D], [0x3D, 0x3D, 0x3D, 0x3D],
      [0x5A, 0x67, 0x3D, 0x3D, 0x5A, 0x67, 0x3D, 0x3D], [0x41, 0x3D, 0x3D, 0x3D], [0x5A, 0x6D, 0x20, 0x39, 0x76],
      [0x3D], [0x5A]].all fun x => !fastPre x) = true := by decide

/-! ## The bus and the host, one step each -/

/-- V-BUS-7: four bytes read as a word and a half. -/
theorem test_little_endian_read :
    (input [0x5A, 0x6D, 0x39, 0x76]).busRead 0x10000 .word = (.okay, 0x76396D5A) ∧
    (input [0x5A, 0x6D, 0x39, 0x76]).busRead 0x10002 .half = (.okay, 0x7639) := by decide
/-- V-BUS-10: a half written at the end of IN_BUF; the byte beyond reads 0. -/
theorem test_write_at_capacity :
    (let t := (hostAt .assertReset).busWrite 0x100FE .half 0x1122
     ((t.busRead 0x100FE .byte).2, (t.busRead 0x100FF .byte).2, (t.busRead 0x10100 .byte).2)) = (0x22, 0x11, 0) := by decide
/-- V-CMD-10, V-CMD-11: a write dropped while BUSY sets IGN; a STATUS write with bit 2 = 0 leaves it. -/
theorem test_dropped_write :
    ((input []).busWrite 0x008 .word 7).inLen = 0 ∧ (((input []).busWrite 0x008 .word 7).busRead 0x004 .word).2 = 0x5 ∧
    ((((input []).busWrite 0x008 .word 7).busWrite 0x004 .word 0x3).busRead 0x004 .word).2 = 0x5 ∧
    ((((input []).busWrite 0x008 .word 7).busWrite 0x004 .word 0x4).busRead 0x004 .word).2 = 0x1 := by decide
/-- P3: the schedule of a command is the one listed for it. -/
theorem test_start_takes_latency :
    (let t := { hostAt .assertReset with latencies := [2, 5] }.busWrite 0x000 .word 0x4
     (t.slack, t.latencies, t.busy, t.cur)) = (2, [5], true, ⟨0, true, false⟩) := by decide
/-- P4: "READOUT -> o ; len = 2": OUT_LEN goes to `len`, and the two byte loads are the host's next steps (R97). -/
theorem test_readout_count :
    ((hostReadingOut.hostTurn.hostReadOut 0 1).host.getVar 0, (hostReadingOut.hostTurn.hostReadOut 0 1).host.pending) =
      (2, [.load .byte 0x20000 1, .load .byte 0x20001 2]) := by decide
/-- P4: o[0] = 66, and the load of o[1] is left. -/
theorem test_readout_load :
    (match step afterReadOut with
     | .next t => (t.host.getVar 1, t.host.pending, t.host.pos)
     | .fault _ => (0, [], 0)
     | .refused _ => (0, [], 0)) = (0x66, [.load .byte 0x20001 2], 1) := by decide
/-- The host's fetch word runs as the very next step, first after reset. -/
theorem test_fetch_word :
    [0x0, 0x1, 0x2, 0x3].map (fun w => outcome (step (State.reset.withFetchWord 32 w))) =
      [some (0, 0, []), some (0, 0, []), some (0, 0, []), some (5, 0, [])] := by decide

/-! ## Witnesses: a state and operands that meet the hypotheses of each statement -/

theorem witness_DecodeAndEncodeAgree : ([0x01, 0x00, 0x00] : List Byte).length < 4 := by decide

theorem witness_EveryWordSelectsOneCommand :
    (⟨"DECODE_FAST", 0x2, 0x3⟩ : OpcodeRow) ∈ opcodeTable ∧
    (0xFFFFFFF2 : Word).extractLsb' 0 2 = (0x0000000E : Word).extractLsb' 0 2 := by decide

theorem witness_EmptyInputSucceedsEmpty : State.reset.inLen = 0 := by decide

theorem witness_ReservedCompletesWithUnknownError :
    (0xFFFFFFFF : Word).extractLsb' 0 2 = 0b11#2 ∧ State.reset.busy = false := by decide

/-- Both cases, the second at the smallest length above IN_CAP, and the largest length that is not in it. -/
theorem witness_UnknownErrorInExactlyTwoCases :
    (Instr.reserved false false).op = 0b11#2 ∧
    ((Instr.decode false false).absent = false ∧ (input [1, 2, 3] 2 9).params.inCap < (input [1, 2, 3] 2 9).inLen.toNat) ∧
    ¬ (input [1, 2] 2 9).params.inCap < (input [1, 2] 2 9).inLen.toNat := by decide

/-- One state and command for each link of the chain, in its order. -/
theorem witness_CheckOrderDecidesTheCode :
    [outcome (exec (.reserved false true) (input [1, 2, 3] 2 9)), outcome (exec (.decode false true) (input [1, 2, 3] 2 9)),
     outcome (exec (.encode false true) (input [1, 2, 3] 2 9)), outcome (exec (.encode false false) (input [1, 2, 3] 2 9)),
     outcome (exec (.decode false false) (input [] 1 1)), outcome (exec (.decode false false) (input [0x5A, 0x67, 0x3D])),
     outcome (exec (.decode false false) (input [0x41, 0x3D, 0x3D, 0x3D])), outcome (exec (.decodeFast false false) (input [0x0D])),
     outcome (exec (.decode false false) (input [0x41, 0x41, 0x41, 0x41] 4 2)),
     outcome (exec (.encode false false) (input [0] 1 4))].map (Option.map Prod.fst) =
      [some 5, some 2, some 1, some 5, some 0, some 4, some 4, some 0, some 3, some 0] := by decide

/-- The link in which FastPre fails: the text "Zg=". -/
theorem witness_CheckOrderDecidesTheCode_draw :
    (∃ t, exec (.decodeFast false false) (input [0x5A, 0x67, 0x3D]) = .next t) ∧
    fastPre ((input [0x5A, 0x67, 0x3D]).inBytes 3) = false := ⟨⟨_, rfl⟩, by decide⟩

theorem witness_CodesEachCommandProduces :
    (∃ t, exec (.encode false false) (input [0]) = .next t) ∧ (∃ t, exec (.decode false false) (input [0]) = .next t) ∧
    (∃ t, exec (.decodeFast false false) (input [0]) = .next t) ∧ (∃ t, exec (.reserved false false) (input [0]) = .next t) :=
  ⟨⟨_, rfl⟩, ⟨_, rfl⟩, ⟨_, rfl⟩, ⟨_, rfl⟩⟩

/-- A command that records an error, and one whose output is not drawn. -/
theorem witness_CompletionFrame :
    (input [0] 1 3).params.wf = true ∧
    (∃ t, exec (.encode false false) (input [0] 1 3) = .next t ∧ t.result ≠ .ok) ∧
    ¬ (input [0] 1 3).outcomeDrawn (.encode false false) :=
  ⟨by decide, ⟨_, rfl, by decide⟩, fun h => absurd h.1 (by decide)⟩

/-- Two states that differ in a byte beyond the input and in OUT_LEN. -/
theorem witness_CommandsReadOnlyTheirInput :
    (let s := input [0x66]
     let t := { input [0x66] with inBuf := { fill := 5, cells := [(0, 0x66), (1, 9)] }, outLen := 7 }
     s.params = t.params ∧ s.inLen = t.inLen ∧ (∀ j, j < s.inLen.toNat → s.inByte j = t.inByte j) ∧
     ¬ s.outcomeDrawn (.encode true false)) :=
  ⟨by decide, by decide, by decide, fun h => absurd h.1 (by decide)⟩

/-- OUT_CAP exactly the length; one group, and 20 groups with a line break. -/
theorem witness_EncodeWritesTheText :
    ((input [0x66] 1 4).params.wf = true ∧ 1 = (input [0x66] 1 4).inLen.toNat ∧ 1 ≤ (input [0x66] 1 4).params.inCap ∧
      4 * ((1 + 2) / 3) + 2 * (((1 + 2) / 3 - 1) / 19) ≤ (input [0x66] 1 4).params.outCap) ∧
    (let s := { input [] 58 82 with inLen := 58 }
     s.params.wf = true ∧ 58 = s.inLen.toNat ∧ 58 ≤ s.params.inCap ∧
      4 * ((58 + 2) / 3) + 2 * (((58 + 2) / 3 - 1) / 19) ≤ s.params.outCap ∧ 19 * 1 < (58 + 2) / 3) := by decide

/-- One byte too many, and exactly OUT_CAP. -/
theorem witness_EncodeTooLongGivesNoMemory :
    1 ≤ (input [0x66] 1 3).inLen.toNat ∧ (input [0x66] 1 3).inLen.toNat ≤ (input [0x66] 1 3).params.inCap ∧
    (input [0x66] 1 3).params.outCap < 4 * (((input [0x66] 1 3).inLen.toNat + 2) / 3) + 2 * 0 ∧
    4 * (((input [0x66] 1 4).inLen.toNat + 2) / 3) + 2 * 0 ≤ (input [0x66] 1 4).params.outCap := by decide

theorem witness_EncodeLengthIsComputedRight : ([0x66] : List Byte) ≠ [] := by decide

theorem witness_WrapHasNoEffectOnShortInput : ({ State.reset with inLen := 57 } : State).inLen.toNat ≤ 57 := by decide

/-- The last position of "Zg==" holds `=`. -/
theorem witness_EncodeOutputAlphabet : (encodeText false [0x66]).getD 3 0 = padByte := by decide

/-- "Zg==", with OUT_CAP exactly the length. -/
theorem witness_DecodeWritesTheBytes :
    (let s := input [0x5A, 0x67, 0x3D, 0x3D] 4 1
     s.params.wf = true ∧ s.inLen.toNat = 4 ∧ 4 ≤ s.params.inCap ∧ ((s.inBytes 4).filter isMean).length % 4 = 0 ∧
     padCount (s.inBytes 4) ≤ 2 ∧ ((s.inBytes 4).filter isMean).length * 6 / 8 - padCount (s.inBytes 4) = 1 ∧
     1 ≤ s.params.outCap) := by decide

/-- "Zg=" for the count and "A===" for the padding. -/
theorem witness_DecodeRejectsBadStructure :
    (let s := input [0x5A, 0x67, 0x3D]
     1 ≤ s.inLen.toNat ∧ s.inLen.toNat ≤ s.params.inCap ∧ ((s.inBytes s.inLen.toNat).filter isMean).length % 4 ≠ 0) ∧
    (let s := input [0x41, 0x3D, 0x3D, 0x3D]
     1 ≤ s.inLen.toNat ∧ s.inLen.toNat ≤ s.params.inCap ∧ 2 < padCount (s.inBytes s.inLen.toNat)) := by decide

theorem witness_DecodeTooLongGivesNoMemory :
    (let s := input [0x41, 0x41, 0x41, 0x41] 4 2
     1 ≤ s.inLen.toNat ∧ s.inLen.toNat ≤ s.params.inCap ∧ ((s.inBytes 4).filter isMean).length % 4 = 0 ∧
     padCount (s.inBytes 4) ≤ 2 ∧
     s.params.outCap < ((s.inBytes 4).filter isMean).length * 6 / 8 - padCount (s.inBytes 4)) := by decide

theorem witness_PadCountsTrailingPadding : isSymbol 0x41 = true ∧ isSep 0x20 = true := by decide

/-- "AAAA" and " AA AA". -/
theorem witness_DecodeIgnoresSeparators :
    (let s := input [0x41, 0x41, 0x41, 0x41]
     let t := input [0x20, 0x41, 0x41, 0x20, 0x41, 0x41]
     s.params.outCap = t.params.outCap ∧ s.inLen.toNat ≤ s.params.inCap ∧ t.inLen.toNat ≤ t.params.inCap ∧
     (s.inBytes s.inLen.toNat).filter isMean = (t.inBytes t.inLen.toNat).filter isMean) := by decide

theorem witness_SeparatorsOnlyDecodeToNothing :
    (let s := input [0x0D, 0x0A]
     1 ≤ s.inLen.toNat ∧ s.inLen.toNat ≤ s.params.inCap ∧ ∀ b ∈ s.inBytes s.inLen.toNat, isSep b = true) := by decide

/-- Both sides of the decision, the second in the wrapped form. -/
theorem witness_FastPreDecidesThePrecondition :
    fastPre [0x0D, 0x0A] = true ∧ fastPre (0x20 :: wrap76 (List.replicate 80 0x41)) = true := by decide

/-- 77 bytes: the byte after the break, and the break itself. -/
theorem witness_WrapAtSeventySix :
    76 < (List.replicate 77 (0x41 : Byte)).length ∧ 1 ≤ 1 ∧ 76 * 1 < (List.replicate 77 (0x41 : Byte)).length := by decide

/-- "Zm8=", with OUT_CAP exactly the length. -/
theorem witness_FastDecodesItsPreconditionExactly :
    (let s := input [0x5A, 0x6D, 0x38, 0x3D] 4 2
     s.params.wf = true ∧ s.inLen.toNat = 4 ∧ 4 ≤ s.params.inCap ∧ fastPre (s.inBytes 4) = true ∧
     ((s.inBytes 4).filter isMean).length * 6 / 8 - padCount (s.inBytes 4) = 2 ∧ 2 ≤ s.params.outCap) := by decide

theorem witness_FastRefinesDecodeOnItsPrecondition :
    (let s := input [0x5A, 0x6D, 0x38, 0x3D]
     1 ≤ s.inLen.toNat ∧ s.inLen.toNat ≤ s.params.inCap ∧ fastPre (s.inBytes s.inLen.toNat) = true) := by decide

theorem witness_FastOutsideItsPreconditionIsADraw :
    (input [0x5A, 0x67, 0x3D]).params.wf = true ∧ (input [0x5A, 0x67, 0x3D]).outcomeDrawn (.decodeFast false false) :=
  ⟨by decide, by decide, by decide, by decide, by decide, by decide⟩

theorem witness_EncodeOutputMeetsFastPre :
    (∀ b ∈ ([0x20] : List Byte), isSep b = true) ∧ (∀ b ∈ ([0x0D, 0x0A] : List Byte), isSep b = true) := by decide

/-- "f" encoded, and "Zg==" in the decoders' input buffer. -/
theorem witness_RoundTripThroughBothDecoders :
    (let s := input [0x66] 1 4
     let t := input [0x5A, 0x67, 0x3D, 0x3D] 4 1
     s.params.wf = true ∧ t.params.wf = true ∧ s.inLen.toNat ≤ s.params.inCap ∧
     ∃ u, exec (.encode false false) s = .next u ∧ u.result = .ok ∧ t.inLen = u.outLen ∧
       t.inBytes t.inLen.toNat = u.outBytes u.outLen.toNat ∧ u.outLen.toNat ≤ t.params.inCap ∧
       s.inLen.toNat ≤ t.params.outCap) :=
  ⟨by decide, by decide, by decide, _, rfl, by decide, by decide, by decide, by decide, by decide⟩

/-- V-BUS-4, V-BUS-6 and their legal neighbours. -/
theorem witness_IllegalTransactionsHaveNoEffect :
    ((0x004 : Offset).toNat < 0x10000 ∧ ¬ (Width.half = .word ∧ (0x004 : Offset).toNat % 4 = 0)) ∧
    (0x10000 ≤ (0x10001 : Offset).toNat ∧ (0x10001 : Offset).toNat % Width.word.bytes ≠ 0) ∧
    ((0xFFFC : Offset).toNat < 0x10000 ∧ Width.word = .word ∧ (0xFFFC : Offset).toNat % 4 = 0) ∧
    (0x10000 ≤ (0x3FFFF : Offset).toNat ∧ (0x3FFFF : Offset).toNat % Width.byte.bytes = 0) := by decide

/-- The first and the last reserved register. -/
theorem witness_ConstantAndReservedRegisters :
    State.reset.params.wf = true ∧ 0x01C ≤ (0x01C : Offset).toNat ∧ (0xFFFC : Offset).toNat < 0x10000 ∧
    (0xFFFC : Offset).toNat % 4 = 0 ∧ (0x01C : Offset).toNat % 4 = 0 := by decide

theorem witness_CmdWriteStartsACommand : State.reset.busy = false ∧ State.reset.rst = false := by decide

/-- Each clause at its edge: CMD, IN_LEN, the first and last IN_BUF byte below IN_CAP; STATUS; the byte at IN_CAP. -/
theorem witness_WritesWhileBusyAreDropped :
    (input [0]).busy = true ∧ (input [0]).params.inCap = 0x100 ∧
    ([(0x000, Width.word), (0x008, .word), (0x10000, .byte), (0x100FF, .byte), (0x004, .word), (0x10100, .byte)].all
      fun a => legal a.1 a.2) = true := by decide

/-- IGN is set by a dropped write, and cleared by a STATUS write. -/
theorem witness_IgnStaysUntilCleared :
    (∃ t, step (busyHostAt (.store .byte 0x100FF (.imm 1))) = .next t ∧
      (busyHostAt (.store .byte 0x100FF (.imm 1))).ign = false ∧ t.ign = true) ∧
    (∃ t, step { hostAt (.store .word 0x004 (.imm 4)) with ign := true } = .next t ∧ t.ign = false) :=
  ⟨⟨_, rfl, by decide, by decide⟩, ⟨_, rfl, by decide⟩⟩

/-- The last aligned word below IN_CAP, a byte at the end of a window, and both ends of the top region. -/
theorem witness_WindowAccessesAreLittleEndian :
    (0xFC < 0x10000 ∧ 0xFC % Width.word.bytes = 0 ∧ (0x100FC : Offset).toNat = 0x10000 + 0xFC ∧
      (0x200FC : Offset).toNat = 0x20000 + 0xFC ∧ State.reset.busy = false) ∧
    (0xFFFF < 0x10000 ∧ 0xFFFF % Width.byte.bytes = 0 ∧ (0x1FFFF : Offset).toNat = 0x10000 + 0xFFFF) ∧
    (0 % Width.word.bytes = 0 ∧ (0x30000 : Offset).toNat = 0x30000 + 0 ∧ (0x3FFFF : Offset).toNat = 0x30000 + 0xFFFF) := by decide

theorem witness_OutBufIgnoresHostWrites :
    0x20000 ≤ (0x20000 : Offset).toNat ∧ (0x20000 : Offset).toNat % Width.word.bytes = 0 ∧
    0x20000 ≤ (0x3FFFF : Offset).toNat ∧ (0x3FFFF : Offset).toNat % Width.byte.bytes = 0 := by decide

/-- A running command, in order. -/
theorem input_inv : (input [0x66] 1 4).Inv where
  params := by decide
  busyNotDone := by decide
  outLenFits := by decide
  errorEmpty := by decide
  untouched := by decide
  inReset := by decide
  inBufOk := ⟨by decide, by decide, by decide⟩
  outBufOk := ⟨by decide, by decide, by decide⟩
  varsOk := by decide

/-- Each of the six codes, in a running command's state that meets the invariant. -/
theorem witness_codes (c : Code) :
    ({ input [0x66] 1 4 with result := c } : State).Inv ∧ ({ input [0x66] 1 4 with result := c } : State).busy = true ∧
    ({ input [0x66] 1 4 with result := c } : State).result = c :=
  ⟨{ input_inv with errorEmpty := fun _ => rfl, untouched := by simp [input] }, rfl, rfl⟩

theorem witness_ReadsWhileBusy :
    (input [0x66] 1 4).Inv ∧ (input [0x66] 1 4).busy = true ∧ 0 < 0x10000 ∧ 0 % Width.word.bytes = 0 ∧
    (0x20000 : Offset).toNat = 0x20000 + 0 ∧ (0x10000 : Offset).toNat = 0x10000 + 0 :=
  ⟨input_inv, by decide, by decide, by decide, by decide, by decide⟩

/-- A read of OUT_BUF while idle, of IN_BUF while busy, and a write that changes the state. -/
theorem witness_OnlyFourKindsOfWriteHaveEffects :
    State.reset.busy = false ∧ (0x1FFFF : Offset).toNat < 0x20000 ∧ 0x30000 ≤ (0x30000 : Offset).toNat ∧
    (State.reset.busWrite 0x100FF .byte 0x55 ≠ State.reset) := by decide

theorem witness_InLenStoresAllBits : State.reset.busy = false := by decide

/-- Each of the movers that change BUSY or DONE, a release with the input asserted and one without among them. -/
theorem witness_BusyAndDoneChangeOnlyAtStartAndCompletion :
    ((input [0]).mover = .engine ∧ ∃ t, step (input [0]) = .next t) ∧
    ((hostAt (.store .word 0x000 (.imm 1))).mover = .host (.store .word 0x000 (.imm 1)) ∧
      (hostAt (.store .word 0x000 (.imm 1))).busy = false ∧ ∃ t, step (hostAt (.store .word 0x000 (.imm 1))) = .next t) ∧
    ((busyHostAt .assertReset).mover = .host .assertReset ∧ ∃ t, step (busyHostAt .assertReset) = .next t) ∧
    ((busyHostAt .releaseReset).mover = .host .releaseReset ∧ ∃ t, step (busyHostAt .releaseReset) = .next t) ∧
    (let s := { hostAt .releaseReset with rst := true }
     s.mover = .host .releaseReset ∧ ∃ t, step s = .next t) :=
  ⟨⟨by decide, _, rfl⟩, ⟨by decide, by decide, _, rfl⟩, ⟨by decide, _, rfl⟩, ⟨by decide, _, rfl⟩, ⟨by decide, _, rfl⟩⟩

theorem witness_OutcomeChangesOnlyAtCompletion :
    (let s := busyHostAt (.store .word 0x000 (.imm 1))
     (∃ t, step s = .next t) ∧ s.mover ≠ .engine ∧ s.mover ≠ .host .assertReset ∧ s.mover ≠ .host .releaseReset) :=
  ⟨⟨_, rfl⟩, by decide, by decide, by decide⟩

theorem witness_InputIsStableWhileBusy :
    (let s := busyHostAt (.store .word 0x008 (.imm 1))
     (∃ t, step s = .next t) ∧ s.busy = true ∧ s.mover ≠ .host .assertReset ∧ s.mover ≠ .host .releaseReset) :=
  ⟨⟨_, rfl⟩, by decide, by decide, by decide⟩

/-- No slack left, and no host step left with slack. -/
theorem witness_StepRunsTheLatchedCommand :
    ((input [0]).busy = true ∧ (input [0]).slack = 0) ∧
    (({ input [0] with slack := 3 } : State).busy = true ∧
      ({ input [0] with slack := 3 } : State).host.nextOp = none) ∧
    0xFFFFFFFF < 2 ^ 32 ∧ State.reset.busy = false := by decide

theorem witness_TransactionsDuringResetAreRefused : ({ State.reset with rst := true } : State).rst = true := by decide

/-- A host with no step pending, and one with a step pending. -/
theorem witness_HostScriptSteps :
    State.reset.rst = false ∧ State.reset.host.pending = [] ∧
    (let s := afterReadOut
     s.rst = false ∧ ∃ op ops, s.host.pending = op :: ops) :=
  ⟨by decide, by decide, by decide, _, _, rfl⟩

/-- An output that fills OUT_BUF. -/
theorem witness_ReadOutReadsTheOutput :
    (let s := hostReadingOut
     s.params.wf = true ∧ s.outLen.toNat ≤ s.params.outCap ∧ s.busy = false ∧ s.rst = false ∧
     s.host.nextOp = some (.readOut 0 1) ∧ ¬ (1 ≤ 0 ∧ 0 < 1 + s.outLen.toNat) ∧ 1 < s.outLen.toNat) := by decide

/-- An input that fills IN_BUF, between two other steps of the script, and one a byte too long. -/
theorem witness_LoadInPlacesTheInput :
    (let s := { State.resetWith { inCap := 2, outCap := 1 } with
        host := { prog := Script.clrIgn ++ Script.loadIn [0x66, 0x6F] ++ Script.command (.encode false false), pos := 1
                  pending := [], vars := [], resp := none } }
     s.params.wf = true ∧ s.busy = false ∧ s.rst = false ∧ s.host.pos = Script.clrIgn.length ∧ s.host.pending = [] ∧
     ([0x66, 0x6F] : List Byte).length ≤ s.params.inCap ∧ s.params.inCap < ([0x66, 0x6F, 0x6F] : List Byte).length ∧
     ([0x66, 0x6F, 0x6F] : List Byte).length ≤ 65536) := by decide

/-- Idle, and running with just room for both steps. -/
theorem witness_WaitPollsStatus :
    (let s := { State.reset with
        host := { prog := Script.clrIgn ++ Script.waitAt 1 0 ++ Script.readOut 1 2, pos := 1, pending := [], vars := [], resp := none } }
     s.rst = false ∧ s.busy = false ∧ s.host.pos = Script.clrIgn.length ∧ s.host.pending = []) ∧
    (let s := { State.reset with
        busy := true, slack := 2
        host := { prog := Script.waitAt 0 0, pos := 0, pending := [], vars := [], resp := none } }
     s.rst = false ∧ (s.busy = true → 2 ≤ s.slack) ∧ s.host.prog = [] ++ Script.waitAt 0 0 ++ [] ∧ s.host.pos = 0 ∧
     s.host.pending = []) := by decide

/-- With a host step before the completion. -/
theorem witness_StartedCommandsComplete :
    (busyHostAt (.bnz 0 0x1 0)).busy = true ∧ (busyHostAt (.bnz 0 0x1 0)).rst = false ∧
    (busyHostAt (.bnz 0 0x1 0)).slack = 1 := by decide

theorem witness_InvariantHoldsAfterReset :
    Params.wf { inCap := 65536, outCap := 1 } = true ∧ (input [0x66] 1 4).Inv := ⟨by decide, input_inv⟩

theorem witness_EveryStepKeepsTheInvariant :
    (input [0x66] 1 4).Inv ∧ ∃ t, step (input [0x66] 1 4) = .next t := ⟨input_inv, _, rfl⟩

end Sys2Proof.Tests
end

section
/-! PROOFS. The statements of 10_state.md: what the registers read and which steps change what, the invariant of the machine. -/

namespace Sys2Proof.Machine

/-! ## Register accesses (R22, R54) -/

/-- An aligned word transaction on a register is legal (R54). -/
theorem legal_word_of_regs {off : Offset} (h : off.toNat < 0x10000) (h4 : off.toNat % 4 = 0) : legal off .word = true := by
  simp [legal, (region_regs h).1, h4]

/-- Only word transactions on a register are legal (R54). -/
theorem eq_word_of_legal_regs {off : Offset} {n : Width} (h : off.toNat < 0x10000) (hl : legal off n = true) : n = .word := by
  simp only [legal, (region_regs h).1, Bool.and_eq_true, beq_iff_eq] at hl
  exact hl.1

/-- An aligned word read of a register returns its value (R22). -/
theorem State.busRead_reg (s : State) {off : Offset} (h : off.toNat < 0x10000) (h4 : off.toNat % 4 = 0) :
    s.busRead off .word = (.okay, s.readReg off.toNat) := by
  obtain ⟨hreg, hplace⟩ := region_regs h
  simp [State.busRead, State.readData, legal_word_of_regs h h4, hreg, hplace]

/-- A legal write below 0x10000 is a write to its register (R22). -/
theorem State.busWrite_reg (s : State) {off : Offset} {n : Width} (v : Word) (h : off.toNat < 0x10000) (hl : legal off n = true) :
    s.busWrite off n v = s.writeReg off.toNat v := by
  obtain ⟨hreg, hplace⟩ := region_regs h
  simp [State.busWrite, hl, hreg, hplace]

/-- A legal write to the IN_BUF window writes its bytes from its index on (R51, R55). -/
theorem State.busWrite_inWindow (s : State) {off : Offset} {n : Width} (v : Word) (h1 : 0x10000 ≤ off.toNat)
    (h2 : off.toNat < 0x20000) (hl : legal off n = true) :
    s.busWrite off n v = s.writeInWindow (off.toNat - 0x10000) (leBytes n v) := by
  obtain ⟨hreg, hplace⟩ := region_inWindow (off := off) (i := off.toNat - 0x10000) (by omega) (by omega)
  simp [State.busWrite, hl, hreg, hplace]

/-- The OUT_BUF window and the top region ignore writes (R57). -/
theorem State.busWrite_above (s : State) {off : Offset} (n : Width) (v : Word) (h : 0x20000 ≤ off.toNat) :
    s.busWrite off n v = s := by
  by_cases htop : 0x30000 ≤ off.toNat
  · simp [State.busWrite, region_top htop]
  · obtain ⟨hreg, -⟩ := region_outWindow (off := off) (i := off.toNat - 0x20000) (by omega) (by omega)
    simp [State.busWrite, hreg]

/-- An idle write to CMD starts a command (R175). -/
theorem State.busWrite_cmd_idle {s : State} (v : Word) (hidle : s.busy = false) : s.busWrite 0x000 .word v = s.start v := by
  rw [s.busWrite_reg v (by decide) rfl]
  change s.writeCmd v = s.start v
  simp [State.writeCmd, hidle]

/-- An idle write to IN_LEN is stored as it is (R30). -/
theorem State.busWrite_inLen_idle {s : State} (v : Word) (hidle : s.busy = false) :
    s.busWrite 0x008 .word v = { s with inLen := v } := by
  rw [s.busWrite_reg v (by decide) rfl]
  change s.writeInLen v = { s with inLen := v }
  simp [State.writeInLen, hidle]

/-- An aligned word write to a register answers OKAY (R53). -/
theorem writeResp_reg {off : Offset} (h : off.toNat < 0x10000) (h4 : off.toNat % 4 = 0) : writeResp off .word = .okay :=
  if_pos (legal_word_of_regs h h4)

/-- The registers from OUT_LEN on ignore writes (R31 to R34). -/
theorem State.writeReg_ignored (s : State) {off : Nat} (v : Word) (h : 0x008 < off) : s.writeReg off v = s := by
  unfold State.writeReg
  rw [if_neg (by omega), if_neg (by omega), if_neg (by omega)]

/-- A reserved register reads 0 (R34). -/
theorem State.readReg_reserved (s : State) {off : Nat} (h : 0x018 < off) : s.readReg off = 0 := by
  unfold State.readReg
  rw [if_neg (by omega), if_neg (by omega), if_neg (by omega), if_neg (by omega), if_neg (by omega), if_neg (by omega)]

/-- STATUS holds BUSY, DONE and IGN in its bits 0, 1 and 2, and no other bit (R24). -/
theorem State.statusWord_toNat (s : State) :
    s.statusWord.toNat = s.busy.toNat + 2 * s.done.toNat + 4 * s.ign.toNat := by
  unfold State.statusWord
  cases s.busy <;> cases s.done <;> cases s.ign <;> rfl

/-- The legal capacities as inequalities (R7). -/
theorem Params.wf_iff (p : Params) :
    p.wf = true ↔ 1 ≤ p.inCap ∧ p.inCap ≤ 65536 ∧ 1 ≤ p.outCap ∧ p.outCap ≤ 65536 := by
  simp [Params.wf, and_assoc]

/-- Settles O34, by reading each register of the map. -/
theorem registersReadTheirValues : Obligations.RegistersReadTheirValues := by
  intro s
  have hstatus : s.busRead 0x004 .word = (.okay, s.statusWord) := s.busRead_reg (by decide) (by decide)
  have hresult : s.busRead 0x010 .word = (.okay, s.resultWord) := s.busRead_reg (by decide) (by decide)
  refine ⟨s.busRead_reg (by decide) (by decide), ?_, s.busRead_reg (by decide) (by decide), s.busRead_outLen, ?_⟩
  · rw [hstatus]
    exact ⟨rfl, s.statusWord_toNat⟩
  · rw [hresult]
    refine ⟨?_, ?_, ?_, ?_, ?_, ?_⟩ <;> intro hc <;> rw [State.resultWord, hc] <;> rfl

/-- Settles O35: a capacity of at most 65536 fits a word, and no write below 0x10000 but those to CMD, STATUS and IN_LEN has an
effect. -/
theorem constantAndReservedRegisters : Obligations.ConstantAndReservedRegisters := by
  intro s off v hwf
  obtain ⟨-, hin, -, hout⟩ := (Params.wf_iff s.params).mp hwf
  have hincap : s.busRead 0x014 .word = (.okay, BitVec.ofNat 32 s.params.inCap) := s.busRead_reg (by decide) (by decide)
  have houtcap : s.busRead 0x018 .word = (.okay, BitVec.ofNat 32 s.params.outCap) := s.busRead_reg (by decide) (by decide)
  refine ⟨?_, ?_, rfl, rfl, fun _ => rfl, fun h1 h2 h4 => ⟨?_, s.afterRead_regs .word h2, writeResp_reg h2 h4, ?_⟩⟩
  · rw [hincap]
    exact ⟨rfl, Nat.mod_eq_of_lt (by omega)⟩
  · rw [houtcap]
    exact ⟨rfl, Nat.mod_eq_of_lt (by omega)⟩
  · rw [s.busRead_reg h2 h4, s.readReg_reserved (by omega)]
  · rw [s.busWrite_reg v h2 (legal_word_of_regs h2 h4), s.writeReg_ignored v (by omega)]

/-- Settles O44: an idle write to IN_LEN is not dropped and not clamped. -/
theorem inLenStoresAllBits : Obligations.InLenStoresAllBits := by
  intro s v hidle
  have hwrite := State.busWrite_inLen_idle v hidle
  exact ⟨hwrite, hwrite ▸ State.busRead_reg _ (by decide) (by decide)⟩

/-- A write to STATUS as one update of IGN (R24, R27). -/
theorem State.writeStatus_eq (s : State) (v : Word) : s.writeStatus v = { s with ign := s.ign && !v.getLsbD 2 } := by
  unfold State.writeStatus
  split
  · next h => rw [h, Bool.not_true, Bool.and_false]
  · next h => rw [Bool.eq_false_of_not_eq_true h, Bool.not_false, Bool.and_true]

/-- Settles O58. -/
theorem statusWriteClearsIgnOnly : Obligations.StatusWriteClearsIgnOnly := fun s v =>
  ⟨rfl, (s.busWrite_reg v (by decide) rfl).trans (s.writeStatus_eq v)⟩

/-! ## Steps that leave the block alone -/

/-- `t` is `s` but for the host's own state and the model's counters: no register, no buffer and no hidden state of the block
differs, no draw is undone, and the host's variables stay canonical. -/
def State.BlockKept (s t : State) : Prop :=
  ∃ k d g, s.draws ≤ d ∧ (cellsWf s.host.vars → cellsWf g.vars) ∧ t = { s with slack := k, draws := d, host := g }

theorem State.BlockKept.refl (s : State) : s.BlockKept s := ⟨s.slack, s.draws, s.host, Nat.le_refl _, id, rfl⟩

theorem State.BlockKept.trans {s t u : State} (hst : s.BlockKept t) (htu : t.BlockKept u) : s.BlockKept u := by
  obtain ⟨k, d, g, hd, hg, rfl⟩ := hst
  obtain ⟨k', d', g', hd', hg', rfl⟩ := htu
  exact ⟨k', d', g', hd.trans hd', hg' ∘ hg, rfl⟩

/-- The turn of a host step moves only the host on (R96). -/
theorem State.blockKept_hostTurn (s : State) : s.BlockKept s.hostTurn :=
  ⟨s.slack - 1, s.draws, s.host.advance, Nat.le_refl _, id, rfl⟩

/-- The answer to a transaction is the host's alone (R53). -/
theorem State.blockKept_answered (s : State) (r : Resp) (d : Word) : s.BlockKept (s.answered r d) :=
  ⟨s.slack, s.draws, { s.host with resp := some (r, d) }, Nat.le_refl _, id, rfl⟩

/-- No read has a side effect (R58). -/
theorem State.blockKept_hostLoad (s : State) (n : Width) (off : Offset) (r : Nat) : s.BlockKept (s.hostLoad n off r) := by
  rw [State.hostLoad_eq, State.afterRead_eq]
  refine ⟨s.slack, _, _, ?_, cellsWrite_wf r _, rfl⟩
  rw [State.afterRead_draws]
  split <;> omega

/-- A branch moves only the host's place (R96). -/
theorem State.blockKept_hostBranch (s : State) (r : Nat) (m : Word) (l : Nat) : s.BlockKept (s.hostBranch r m l) := by
  unfold State.hostBranch
  split
  · exact ⟨s.slack, s.draws, { s.host with pos := l }, Nat.le_refl _, id, rfl⟩
  · exact .refl s

/-- The first step of a READOUT is a read (R97, R58). -/
theorem State.blockKept_hostReadOut (s : State) (len o : Nat) : s.BlockKept (s.hostReadOut len o) := by
  rw [State.hostReadOut_eq]
  exact ⟨s.slack, s.draws, _, Nat.le_refl _, cellsWrite_wf len _, rfl⟩

/-- The engine's step is the completion of the latched command (R176). -/
theorem step_engine {s : State} (hm : s.mover = .engine) : ∃ r, step s = .next (s.complete r) := by
  obtain ⟨r, hr⟩ := exec_eq_complete s.cur.instr s
  exact ⟨r, by rw [step, hm]; exact hr⟩

/-- The host's step is the next one of its script (R96). -/
theorem step_host {s : State} {op : HostOp} (hm : s.mover = .host op) : step s = s.hostStep op := by
  rw [step, hm]

/-- A host store that is not refused is made (R96, R192). -/
theorem State.hostStep_store {s t : State} {n : Width} {off : Offset} {v : Operand}
    (h : s.hostStep (.store n off v) = .next t) : t = s.hostTurn.hostStore n off v := by
  simp only [State.hostStep] at h
  split at h <;> cases h
  rfl

/-- Everything a step can do to the block (R6): complete the running command, take a host write, reset, or leave it alone. -/
theorem step_block_cases {s t : State} (h : step s = .next t) :
    (s.mover = .engine ∧ s.busy = true ∧ exec s.cur.instr s = .next t) ∨
    (∃ n off v, s.mover = .host (.store n off v) ∧ s.rst = false ∧ t = s.hostTurn.hostStore n off v) ∨
    ((s.mover = .host .assertReset ∨ s.mover = .host .releaseReset) ∧ ∃ l, t = s.hostTurn.resetBlock l) ∨
    s.BlockKept t := by
  rcases step_cases h with heng | ⟨op, hm, -, hop⟩ | ⟨-, -, rfl⟩
  · exact .inl heng
  · have hturn := s.blockKept_hostTurn
    rcases State.hostStep_cases hop with ⟨n, off, v, rfl, hr, ht⟩ | ⟨n, off, r, -, -, rfl⟩ | ⟨r, m, l, -, rfl⟩ |
      ⟨len, o, -, -, rfl⟩ | ⟨rfl, ht⟩ | ⟨rfl, ht⟩
    · exact .inr (.inl ⟨n, off, v, hm, hr, ht⟩)
    · exact .inr (.inr (.inr (hturn.trans (State.blockKept_hostLoad _ n off r))))
    · exact .inr (.inr (.inr (hturn.trans (State.blockKept_hostBranch _ r m l))))
    · exact .inr (.inr (.inr (hturn.trans (State.blockKept_hostReadOut _ len o))))
    · exact .inr (.inr (.inl ⟨.inl hm, true, ht⟩))
    · exact .inr (.inr (.inl ⟨.inr hm, false, ht⟩))
  · exact .inr (.inr (.inr (.refl t)))

/-! ## RESULT, OUT_LEN and OUT_BUF -/

/-- No host write reaches an outcome or a capacity (R31 to R33, R57). -/
theorem State.busWrite_outcome (s : State) (off : Offset) (n : Width) (v : Word) :
    (s.busWrite off n v).result = s.result ∧ (s.busWrite off n v).outLen = s.outLen ∧
    (s.busWrite off n v).outBuf = s.outBuf ∧ (s.busWrite off n v).params = s.params := by
  rcases s.busWrite_cases off n v with h | ⟨-, h⟩ | ⟨-, -, -, h⟩ | ⟨-, -, h⟩ | ⟨-, h⟩ | ⟨-, i, bs, -, h⟩ <;> rw [h] <;> simp

/-- Settles O46, by the steps that are no completion and no reset: a host write, or one that leaves the block alone. -/
theorem outcomeChangesOnlyAtCompletion : Obligations.OutcomeChangesOnlyAtCompletion := by
  intro s t h heng hassert hrelease
  rcases step_block_cases h with ⟨hm, -⟩ | ⟨n, off, v, -, -, rfl⟩ | ⟨hm | hm, -⟩ | ⟨k, d, g, -, -, rfl⟩
  · exact absurd hm heng
  · exact s.hostTurn.busWrite_outcome off n _
  · exact absurd hm hassert
  · exact absurd hm hrelease
  · exact ⟨rfl, rfl, rfl, rfl⟩

/-! ## BUSY and DONE -/

/-- A host write changes BUSY and DONE only where it starts a command (R25, R26, R175). -/
theorem State.busWrite_busy_done (s : State) (off : Offset) (n : Width) (v : Word) :
    ((s.busWrite off n v).busy = s.busy ∧ (s.busWrite off n v).done = s.done) ∨
    (s.busy = false ∧ n = .word ∧ off = 0x000) := by
  rcases s.busWrite_cases off n v with h | ⟨-, h⟩ | ⟨hb, hl, h0, -⟩ | ⟨-, -, h⟩ | ⟨-, h⟩ | ⟨-, i, bs, -, h⟩
  case inr.inr.inl => exact .inr ⟨hb, eq_word_of_legal_regs (by omega) hl, BitVec.eq_of_toNat_eq h0⟩
  all_goals rw [h]; simp

/-- Settles O45: the movers named have one step each, and of the others only a host write could reach BUSY or DONE. -/
theorem busyAndDoneChangeOnlyAtStartAndCompletion : Obligations.BusyAndDoneChangeOnlyAtStartAndCompletion := by
  intro s t h
  refine ⟨fun hm => ?_, fun v hidle hm => ?_, fun hm => ?_, ?_⟩
  · obtain ⟨r, hr⟩ := step_engine hm
    cases hr.symm.trans h
    obtain ⟨-, -, -, -, -, -, -, -, hbusy, hdone⟩ := s.complete_frame r
    exact ⟨hbusy, hdone⟩
  · rw [step_host hm] at h
    obtain rfl := State.hostStep_store h
    rw [State.hostStore, State.busWrite_cmd_idle (s := s.hostTurn) _ hidle]
    exact ⟨rfl, rfl⟩
  · rcases hm with hm | hm <;> (rw [step_host hm] at h; cases h; exact ⟨rfl, rfl⟩)
  · rcases step_block_cases h with ⟨hm, -⟩ | ⟨n, off, v, hm, -, rfl⟩ | ⟨hm, -⟩ | ⟨k, d, g, -, -, rfl⟩
    · exact .inr (.inl hm)
    · rcases s.hostTurn.busWrite_busy_done off n (s.hostTurn.host.operand v) with hkept | ⟨hidle, rfl, rfl⟩
      · exact .inl hkept
      · exact .inr (.inr (.inl ⟨hidle, v, hm⟩))
    · exact .inr (.inr (.inr hm))
    · exact .inl ⟨rfl, rfl⟩

/-! ## IGN (R27) -/

/-- A write to a register leaves IGN set where it was set, and sets it where a write to CMD or IN_LEN is dropped; a STATUS write
may clear it. -/
theorem State.writeReg_ign (s : State) (off : Nat) (v : Word) :
    (s.writeReg off v).ign =
      if off = 0x004 then s.ign && !v.getLsbD 2 else s.ign || (s.busy && (off == 0x000 || off == 0x008)) := by
  unfold State.writeReg State.writeCmd State.writeInLen
  by_cases h0 : off = 0x000
  · cases hb : s.busy <;> simp [h0]
  · by_cases h4 : off = 0x004
    · simp [h4]
    · by_cases h8 : off = 0x008
      · cases hb : s.busy <;> simp [h8]
      · simp [h0, h4, h8]

/-- A write to the IN_BUF window sets IGN where a byte below IN_CAP is dropped (R60). -/
theorem State.writeInWindow_ign (s : State) (i : Nat) (bs : List Byte) :
    (s.writeInWindow i bs).ign = (s.ign || (s.busy && decide (i < s.params.inCap))) := by
  unfold State.writeInWindow
  cases hb : s.busy
  · simp
  · by_cases hi : i < s.params.inCap <;> simp [hi]

/-- A host write that sets IGN is a legal one to CMD, IN_LEN or an IN_BUF byte below IN_CAP while BUSY = 1 (R27, R60). -/
theorem State.busWrite_sets_ign {s : State} {off : Offset} {n : Width} {v : Word} (h0 : s.ign = false)
    (h1 : (s.busWrite off n v).ign = true) :
    s.busy = true ∧ legal off n = true ∧
      (off.toNat = 0x000 ∨ off.toNat = 0x008 ∨ (0x10000 ≤ off.toNat ∧ off.toNat < 0x10000 + s.params.inCap)) := by
  by_cases hl : legal off n = true
  · by_cases hreg : off.toNat < 0x10000
    · rw [s.busWrite_reg v hreg hl, State.writeReg_ign, h0] at h1
      split at h1
      · simp at h1
      · simp only [Bool.false_or, Bool.and_eq_true, Bool.or_eq_true, beq_iff_eq] at h1
        exact ⟨h1.1, hl, h1.2.imp_right .inl⟩
    · by_cases hwin : off.toNat < 0x20000
      · rw [s.busWrite_inWindow v (by omega) hwin hl, State.writeInWindow_ign, h0] at h1
        simp only [Bool.false_or, Bool.and_eq_true, decide_eq_true_eq] at h1
        exact ⟨h1.1, hl, .inr (.inr ⟨by omega, by omega⟩)⟩
      · rw [s.busWrite_above n v (by omega), h0] at h1
        cases h1
  · simp [State.busWrite, hl, h0] at h1

/-- A host write that clears IGN is a STATUS write with bit 2 = 1 (R27). -/
theorem State.busWrite_clears_ign {s : State} {off : Offset} {n : Width} {v : Word} (h1 : s.ign = true)
    (h0 : (s.busWrite off n v).ign = false) : n = .word ∧ off = 0x004 ∧ v.getLsbD 2 = true := by
  rcases s.busWrite_cases off n v with h | ⟨-, h⟩ | ⟨-, -, -, h⟩ | ⟨hl, h4, h⟩ | ⟨-, h⟩ | ⟨-, i, bs, -, h⟩
  case inr.inr.inr.inl =>
    refine ⟨eq_word_of_legal_regs (by omega) hl, BitVec.eq_of_toNat_eq h4, ?_⟩
    simpa [h, h1] using h0
  all_goals simp [h, h1] at h0

/-- Settles O39: a completion keeps IGN, reset clears it, and only certain host writes set or clear it. -/
theorem ignStaysUntilCleared : Obligations.IgnStaysUntilCleared := by
  intro s t h
  rcases step_block_cases h with ⟨hm, -⟩ | ⟨n, off, v, hm, -, rfl⟩ | ⟨hm, l, rfl⟩ | ⟨k, d, g, -, -, rfl⟩
  · obtain ⟨r, hr⟩ := step_engine hm
    cases hr.symm.trans h
    obtain ⟨-, hign, -⟩ := s.complete_frame r
    exact ⟨fun h0 h1 => by simp [hign, h0] at h1, fun h1 h0 => by simp [hign, h1] at h0⟩
  · refine ⟨fun h0 h1 => ?_, fun h1 h0 => ?_⟩
    · obtain ⟨hb, hl, hoff⟩ := State.busWrite_sets_ign (s := s.hostTurn) h0 h1
      exact ⟨hb, n, off, v, hm, hl, hoff⟩
    · obtain ⟨rfl, rfl, hbit⟩ := State.busWrite_clears_ign (s := s.hostTurn) h1 h0
      exact .inl ⟨v, hm, by simpa using hbit⟩
  · exact ⟨fun _ h1 => by simp at h1, fun _ _ => .inr hm⟩
  · exact ⟨fun h0 h1 => by simp [h0] at h1, fun h1 h0 => by simp [h1] at h0⟩

/-! ## The invariant: host steps and reset -/

section
variable {s : State}

/-- A step that leaves the block alone keeps the invariant. -/
theorem State.Inv.of_blockKept {t : State} (h : s.Inv) (hst : s.BlockKept t) : t.Inv := by
  obtain ⟨k, d, g, hd, hg, rfl⟩ := hst
  exact { h with inBufOk := h.inBufOk.mono hd, outBufOk := h.outBufOk.mono hd, varsOk := hg h.varsOk }

/-- A running block is not in reset (R190, R191). -/
theorem State.Inv.rst_of_busy (h : s.Inv) (hb : s.busy = true) : s.rst = false := by
  by_contra hr
  obtain ⟨hidle, -⟩ := h.inReset (by simpa using hr)
  simp [hb] at hidle

/-- A block out of reset may be given any IGN, IN_LEN and input bytes in order. -/
theorem State.Inv.setInput (h : s.Inv) (hr : s.rst = false) (g : Bool) (n : Word) {b : Buffer}
    (hb : b.Ok s.params.inCap s.draws) : State.Inv { s with ign := g, inLen := n, inBuf := b } :=
  { h with inBufOk := hb, inReset := by simp [hr] }

/-- The start of a command keeps the invariant (R175). -/
theorem State.Inv.start (h : s.Inv) (hr : s.rst = false) (w : Word) : (s.start w).Inv := by
  have hd : s.draws ≤ (s.start w).draws := by
    rw [State.start_draws]
    split <;> omega
  exact { h with
    busyNotDone := fun _ => rfl
    untouched := by simp
    inReset := by simp [hr]
    inBufOk := h.inBufOk.mono hd
    outBufOk := h.outBufOk.mono hd }

/-- A host write out of reset keeps the invariant. -/
theorem State.Inv.busWrite (h : s.Inv) (hr : s.rst = false) (off : Offset) (n : Width) (v : Word) :
    (s.busWrite off n v).Inv := by
  rcases s.busWrite_cases off n v with hw | ⟨-, hw⟩ | ⟨-, -, -, hw⟩ | ⟨-, -, hw⟩ | ⟨-, hw⟩ | ⟨-, i, bs, hfit, hw⟩ <;> rw [hw]
  · exact h
  · exact h.setInput hr true s.inLen h.inBufOk
  · exact h.start hr v
  · rw [State.writeStatus_eq]
    exact h.setInput hr _ s.inLen h.inBufOk
  · exact h.setInput hr s.ign v h.inBufOk
  · exact h.setInput hr s.ign s.inLen (Buffer.writeAll_ok h.inBufOk hfit)

/-- Reset re-establishes the invariant (R190). -/
theorem State.Inv.resetBlock (h : s.Inv) (l : Bool) : (s.resetBlock l).Inv where
  params := h.params
  busyNotDone := by simp
  outLenFits := Nat.zero_le _
  errorEmpty := fun _ => rfl
  untouched := fun _ _ => ⟨rfl, rfl⟩
  inReset := fun _ => ⟨rfl, rfl, rfl, rfl⟩
  inBufOk := Buffer.ok_empty (Nat.lt_add_of_pos_right (by decide))
  outBufOk := Buffer.ok_empty (Nat.lt_succ_self _)
  varsOk := h.varsOk

end

/-! ## The invariant: completions -/

/-- A completion whose output length is within OUT_CAP. -/
def Completion.Fits (outCap : Nat) : Completion → Prop
  | .finish _ len _ => len ≤ outCap
  | .draw => True

/-- The last check of an operation lets no longer output through (R174). -/
theorem fitted_fits (outCap len : Nat) (bs : List Byte) : (fitted outCap len bs).Fits outCap := by
  rcases fitted_cases outCap len bs with ⟨-, hf⟩ | ⟨hle, hf⟩ <;> rw [hf]
  · exact Nat.zero_le _
  · exact hle

theorem decodeOp_fits (outCap : Nat) (x : List Byte) : (decodeOp outCap x).Fits outCap := by
  unfold decodeOp
  split
  · exact Nat.zero_le _
  · split
    · exact Nat.zero_le _
    · exact fitted_fits _ _ _

theorem decodeFastOp_fits (outCap : Nat) (x : List Byte) : (decodeFastOp outCap x).Fits outCap := by
  unfold decodeFastOp
  split
  · exact Nat.zero_le _
  · split
    · trivial
    · exact fitted_fits _ _ _

/-- The common checks produce no output of their own (R172). -/
theorem State.checked_fits (s : State) (a : Bool) (c : Code) {op : Nat → List Byte → Completion}
    (hop : ∀ outCap x, (op outCap x).Fits outCap) : (s.checked a c op).Fits s.params.outCap := by
  rcases s.checked_cases a c op with ⟨-, hc⟩ | ⟨-, -, hc⟩ | ⟨-, -, hc⟩ | ⟨-, -, -, hc⟩ <;> rw [hc]
  case inr.inr.inr => exact hop _ _
  all_goals exact Nat.zero_le _

/-- Every command ends in a completion whose output is within OUT_CAP (R31, R174). -/
theorem exec_fits (i : Instr) (s : State) : ∃ r, exec i s = .next (s.complete r) ∧ r.Fits s.params.outCap := by
  cases i with
  | encode w a => exact ⟨_, rfl, s.checked_fits a _ fun _ _ => fitted_fits _ _ _⟩
  | decode w a => exact ⟨_, rfl, s.checked_fits a _ decodeOp_fits⟩
  | decodeFast w a => exact ⟨_, rfl, s.checked_fits a _ decodeFastOp_fits⟩
  | reserved w a => exact ⟨_, rfl, Nat.zero_le _⟩

/-- A completion within OUT_CAP keeps the invariant (R176, R177). -/
theorem State.Inv.finish {s : State} (h : s.Inv) (hr : s.rst = false) (c : Code) {n : Nat} (bs : List Byte)
    (hn : n ≤ s.params.outCap) : (s.finish c n bs).Inv where
  params := h.params
  busyNotDone := by simp
  outLenFits := by
    rw [State.finish_outLen]
    split
    · exact (Nat.mod_le n _).trans hn
    · exact Nat.zero_le _
  errorEmpty := fun hc => if_neg hc
  untouched := by simp
  inReset := by simp [hr]
  inBufOk := h.inBufOk
  outBufOk := by
    rw [State.finish_outBuf]
    split
    · exact Buffer.writeAll_ok h.outBufOk (.inr (by simp; omega))
    · exact h.outBufOk
  varsOk := h.varsOk

/-- The draw of R161 keeps the invariant: a drawn OUT_LEN is at most OUT_CAP. -/
theorem State.Inv.finishDraw {s : State} (h : s.Inv) (hr : s.rst = false) : s.finishDraw.Inv := by
  have hd : s.draws ≤ s.draws + 1 := Nat.le_succ _
  rcases s.finishDraw_cases with hf | hf <;> rw [hf]
  · rw [← State.finish_nil]
    exact (h.finish hr .noMemory [] (Nat.zero_le _)).of_blockKept ⟨0, s.draws + 1, s.host, hd, id, rfl⟩
  · exact { h with
      busyNotDone := by simp
      outLenFits := (Nat.mod_le _ _).trans (Nat.le_of_lt_succ (Nat.mod_lt _ (Nat.succ_pos _)))
      errorEmpty := fun hc => absurd rfl hc
      untouched := by simp
      inReset := by simp [hr]
      inBufOk := h.inBufOk.mono hd
      outBufOk := Buffer.ok_empty (Nat.lt_succ_self _) }

/-- Settles O55, by everything a step can do to the block. -/
theorem everyStepKeepsTheInvariant : Obligations.EveryStepKeepsTheInvariant := by
  intro s t hinv h
  have hturn : s.hostTurn.Inv := hinv.of_blockKept s.blockKept_hostTurn
  rcases step_block_cases h with ⟨-, hb, hexec⟩ | ⟨n, off, v, -, hr, rfl⟩ | ⟨-, l, rfl⟩ | hkept
  · obtain ⟨r, hr, hfits⟩ := exec_fits s.cur.instr s
    cases hr.symm.trans hexec
    have hrst := hinv.rst_of_busy hb
    cases r with
    | finish c len bs => exact hinv.finish hrst c bs hfits
    | draw => exact hinv.finishDraw hrst
  · exact (hturn.busWrite hr off n _).of_blockKept (State.blockKept_answered _ _ _)
  · exact hturn.resetBlock l
  · exact hinv.of_blockKept hkept

end Sys2Proof.Machine
end

section
/-! PROOFS. The statements of 20_memory.md: which transactions are legal, what the buffer windows read and write, what a host can
do while a command runs, and that a command depends on its input alone. -/

namespace Sys2Proof.Machine

/-! ## Legality (R54) -/

/-- Every offset from 0x10000 on lies outside the register region (R51). -/
theorem region_ne_regs {off : Offset} (h : 0x10000 ≤ off.toNat) : region off ≠ .regs := by
  unfold region
  rw [if_neg (by omega)]
  split
  · simp
  · split <;> simp

/-- Outside the register region a transaction is legal when it is naturally aligned (R54). -/
theorem legal_of_ge {off : Offset} (n : Width) (h : 0x10000 ≤ off.toNat) : legal off n = (off.toNat % n.bytes == 0) := by
  unfold legal
  split
  · next hr => exact absurd hr (region_ne_regs h)
  · rfl

/-- The legal transactions: aligned words on registers, and naturally aligned ones elsewhere (R54). -/
theorem legal_iff (off : Offset) (n : Width) :
    legal off n = true ↔
      (off.toNat < 0x10000 ∧ n = .word ∧ off.toNat % 4 = 0) ∨ (0x10000 ≤ off.toNat ∧ off.toNat % n.bytes = 0) := by
  by_cases h : off.toNat < 0x10000
  · simp [legal, (region_regs h).1, h]
  · simp [legal_of_ge n (Nat.le_of_not_lt h), h, Nat.le_of_not_lt h]

/-- A window starts at a multiple of 0x10000, so an access is aligned where its index is (R51, R54). -/
theorem legal_window {off : Offset} {n : Width} (b : Nat) {i : Nat} (h : off.toNat = 0x10000 * (b + 1) + i)
    (hi : i % n.bytes = 0) : legal off n = true := by
  rw [legal_of_ge n (by omega), beq_iff_eq]
  cases n <;> simp only [Width.bytes] at hi ⊢ <;> omega

/-- Settles O33, by which transactions are legal. -/
theorem illegalTransactionsHaveNoEffect : Obligations.IllegalTransactionsHaveNoEffect := by
  refine fun s off n v => ⟨fun h => ?_, fun h => ?_⟩
  · have hl : ¬ legal off n = true := by
      rw [legal_iff]
      rintro (⟨hlt, hword, halign⟩ | ⟨hge, halign⟩)
      · exact h.elim (fun ⟨_, hbad⟩ => hbad ⟨hword, halign⟩) (fun ⟨hge, _⟩ => by omega)
      · exact h.elim (fun ⟨hlt, _⟩ => by omega) (fun ⟨_, hbad⟩ => hbad halign)
    simp [State.busWrite, writeResp, State.busRead, State.afterRead, State.readDraws, hl]
  · have hl : legal off n = true := (legal_iff off n).mpr h
    simp [writeResp, State.busRead, hl]

/-! ## Host writes by region (R57, R58, R60) -/

/-- Settles O41. -/
theorem outBufIgnoresHostWrites : Obligations.OutBufIgnoresHostWrites := fun s off n v h halign =>
  ⟨if_pos ((legal_iff off n).mpr (.inr ⟨by omega, halign⟩)), s.busWrite_above n v h⟩

/-- The bytes of the IN_BUF window at or beyond IN_CAP ignore writes, busy or idle (R55, R60). -/
theorem State.writeInWindow_beyond {s : State} {i : Nat} (bs : List Byte) (h : s.params.inCap ≤ i) :
    s.writeInWindow i bs = s := by
  unfold State.writeInWindow
  rw [if_neg (Nat.not_lt.mpr h), Nat.sub_eq_zero_of_le h]
  simp

/-- A write to a register while BUSY = 1 (R60). -/
theorem State.writeReg_busy {s : State} (off : Nat) (v : Word) (hb : s.busy = true) :
    s.writeReg off v =
      if off = 0x000 ∨ off = 0x008 then s.dropWrite else if off = 0x004 then s.writeStatus v else s := by
  unfold State.writeReg State.writeCmd State.writeInLen
  by_cases h0 : off = 0x000
  · simp [h0, hb]
  · by_cases h8 : off = 0x008
    · simp [h8, hb]
    · simp [h0, h8]

/-- Settles O38, region by region. -/
theorem writesWhileBusyAreDropped : Obligations.WritesWhileBusyAreDropped := by
  refine fun s off n v hb hl => ⟨if_pos hl, ?_⟩
  by_cases hreg : off.toNat < 0x10000
  · rw [s.busWrite_reg v hreg hl, State.writeReg_busy _ v hb, State.writeStatus_eq]
    simp [Nat.not_le.mpr hreg, State.dropWrite]
  · by_cases hwin : off.toNat < 0x20000
    · rw [s.busWrite_inWindow v (by omega) hwin hl]
      by_cases hcap : off.toNat < 0x10000 + s.params.inCap
      · rw [if_pos (by omega)]
        simp [State.writeInWindow, hb, State.dropWrite, show off.toNat - 0x10000 < s.params.inCap by omega]
      · rw [if_neg (by omega), if_neg (by omega), State.writeInWindow_beyond _ (by omega)]
    · rw [s.busWrite_above n v (by omega), if_neg (by omega), if_neg (by omega)]

/-- Only CMD, STATUS and IN_LEN are registers a write may change (R31 to R34). -/
theorem State.writeReg_other (s : State) {off : Nat} (v : Word) (h0 : off ≠ 0x000) (h4 : off ≠ 0x004) (h8 : off ≠ 0x008) :
    s.writeReg off v = s := by
  simp [State.writeReg, h0, h4, h8]

/-- A host write that changes the state is a legal one to CMD, STATUS, IN_LEN or an IN_BUF byte below IN_CAP (R58). -/
theorem State.target_of_busWrite_ne {s : State} {off : Offset} {n : Width} {v : Word} (h : s.busWrite off n v ≠ s) :
    legal off n = true ∧ (off.toNat = 0x000 ∨ off.toNat = 0x004 ∨ off.toNat = 0x008 ∨
      (0x10000 ≤ off.toNat ∧ off.toNat < 0x10000 + s.params.inCap ∧ off.toNat < 0x20000)) := by
  have hl : legal off n = true := by
    by_contra hl
    exact h (if_neg hl)
  refine ⟨hl, ?_⟩
  by_contra htarget
  refine h ?_
  by_cases hreg : off.toNat < 0x10000
  · rw [s.busWrite_reg v hreg hl, s.writeReg_other v (by omega) (by omega) (by omega)]
  · by_cases hwin : off.toNat < 0x20000
    · rw [s.busWrite_inWindow v (by omega) hwin hl, State.writeInWindow_beyond _ (by omega)]
    · exact s.busWrite_above n v (by omega)

/-- The offsets of the OUT_BUF window (R51). -/
theorem outWindow_bounds {off : Offset} (h : region off = .outWindow) : 0x20000 ≤ off.toNat ∧ off.toNat < 0x30000 := by
  unfold region at h
  split_ifs at h
  omega

/-- A read takes a draw only in the OUT_BUF window, while BUSY = 1 (R61). -/
theorem State.afterRead_of_no_draw {s : State} {off : Offset} (n : Width)
    (h : s.busy = false ∨ off.toNat < 0x20000 ∨ 0x30000 ≤ off.toNat) : s.afterRead off n = s := by
  rcases h with hb | hoff
  · simp [State.afterRead, State.readDraws, hb]
  · have hr : region off ≠ .outWindow := fun hr => by
      have := outWindow_bounds hr
      omega
    simp [State.afterRead, State.readDraws, hr]

/-- Settles O43. -/
theorem onlyFourKindsOfWriteHaveEffects : Obligations.OnlyFourKindsOfWriteHaveEffects := fun s off n _ =>
  ⟨s.afterRead_eq off n, State.afterRead_of_no_draw n, State.target_of_busWrite_ne⟩

/-! ## Little-endian values (R55) -/

/-- Bit `j` of a little-endian value is bit `j mod 8` of its byte `j div 8`. -/
theorem leWord_getLsbD (bs : List Byte) (j : Nat) :
    (leWord bs).getLsbD j = (decide (j < 32) && (bs.getD (j / 8) 0).getLsbD (j % 8)) := by
  induction bs generalizing j with
  | nil => simp [leWord]
  | cons b bs ih =>
    rw [leWord, BitVec.getLsbD_or, BitVec.getLsbD_setWidth, BitVec.getLsbD_shiftLeft, ih]
    rcases Nat.lt_or_ge j 8 with hj | hj
    · simp [hj, Nat.div_eq_of_lt hj, Nat.mod_eq_of_lt hj]
    · obtain ⟨m, rfl⟩ := Nat.exists_eq_add_of_le' hj
      rw [BitVec.getLsbD_of_ge b (m + 8) hj, Nat.add_div_right m (by decide), Nat.add_mod_right, List.getD_cons_succ,
        Nat.add_sub_cancel]
      by_cases hm : m + 8 < 32
      · simp [hm, show m < 32 by omega]
      · simp [hm]

/-- Byte `k` of a little-endian value. -/
theorem leWord_byte {bs : List Byte} {k : Nat} (hk : k < 4) : (leWord bs).extractLsb' (8 * k) 8 = bs.getD k 0 := by
  ext j hj
  rw [BitVec.getElem_extractLsb', leWord_getLsbD, Nat.mul_add_div (by decide), Nat.mul_add_mod, Nat.div_eq_of_lt hj,
    Nat.mod_eq_of_lt hj, decide_eq_true (by omega), Bool.true_and, Nat.add_zero, BitVec.getLsbD_eq_getElem]

/-- A little-endian value of `m` bytes is below `2 ^ (8 * m)`. -/
theorem leWord_lt (bs : List Byte) : (leWord bs).toNat < 2 ^ (8 * bs.length) := by
  refine Nat.lt_pow_two_of_testBit _ fun j hj => ?_
  have hbyte : bs.getD (j / 8) 0 = 0 := by
    rw [List.getD_eq_getElem?_getD, List.getElem?_eq_none (by omega), Option.getD_none]
  rw [BitVec.testBit_toNat, leWord_getLsbD, hbyte]
  simp

/-- A string of zero bytes has the value 0. -/
theorem leWord_replicate_zero (m : Nat) : leWord (List.replicate m 0) = 0 := by
  induction m with
  | zero => rfl
  | succ m ih =>
    rw [List.replicate_succ, leWord, ih]
    rfl

theorem Width.bytes_le (n : Width) : n.bytes ≤ 4 := by cases n <;> decide

theorem Width.bits_eq (n : Width) : n.bits = 8 * n.bytes := by cases n <;> rfl

@[simp] theorem leBytes_length (n : Width) (v : Word) : (leBytes n v).length = n.bytes := by simp [leBytes]

/-- Byte `k` of a written value. -/
theorem leBytes_getD {n : Width} (v : Word) {k : Nat} (hk : k < n.bytes) :
    (leBytes n v).getD k 0 = v.extractLsb' (8 * k) 8 := by
  simp [leBytes, List.getD_eq_getElem?_getD, hk]

/-! ## The buffer windows (R55, R61) -/

/-- A legal read outside the registers answers OKAY with the bytes of its region from its place on, as a little-endian value. -/
theorem State.busRead_window (s : State) {off : Offset} {n : Width} (h : 0x10000 ≤ off.toNat) (hl : legal off n = true) :
    s.busRead off n =
      (.okay, leWord ((List.range n.bytes).map fun k => s.windowByte (region off) (place off + k))) := by
  rw [State.busRead, if_pos hl]
  unfold State.readData
  split
  · next hr => exact absurd hr (region_ne_regs h)
  · rfl

section
variable {s : State} {off : Offset} {n : Width} {r : Region} {i : Nat}

/-- Each byte of a legal read outside the registers is the byte of its own index, and there are no further bits. -/
theorem State.busRead_window_bytes (h : 0x10000 ≤ off.toNat) (hl : legal off n = true)
    (hplace : region off = r ∧ place off = i) :
    (s.busRead off n).2.toNat < 2 ^ n.bits ∧
      ∀ k, k < n.bytes → (s.busRead off n).2.extractLsb' (8 * k) 8 = s.windowByte r (i + k) := by
  obtain ⟨rfl, rfl⟩ := hplace
  rw [s.busRead_window h hl, n.bits_eq]
  refine ⟨by simpa using leWord_lt ((List.range n.bytes).map _), fun k hk => ?_⟩
  rw [leWord_byte (hk.trans_le n.bytes_le)]
  simp [List.getD_eq_getElem?_getD, hk]

/-- An idle, legal write to the IN_BUF window changes IN_BUF alone (R55). -/
theorem State.busWrite_inWindow_idle (v : Word) (hi : i < 0x10000) (hoff : off.toNat = 0x10000 + i)
    (hl : legal off n = true) (hidle : s.busy = false) :
    s.busWrite off n v = { s with inBuf := s.inBuf.writeAll i ((leBytes n v).take (s.params.inCap - i)) } := by
  rw [s.busWrite_inWindow v (by omega) (by omega) hl, hoff, Nat.add_sub_cancel_left]
  simp [State.writeInWindow, hidle]

end

/-- A run of written bytes cut off at a capacity: what the buffer reads at each index. -/
theorem Buffer.read_writeAll_take (b : Buffer) (n : Width) (v : Word) (cap i j : Nat) :
    (b.writeAll i ((leBytes n v).take (cap - i))).read j =
      if i ≤ j ∧ j < i + n.bytes ∧ j < cap then v.extractLsb' (8 * (j - i)) 8 else b.read j := by
  rw [Buffer.read_writeAll, List.length_take, leBytes_length]
  by_cases hj : i ≤ j ∧ j < i + n.bytes ∧ j < cap
  · rw [if_pos (by omega), if_pos hj, ← leBytes_getD (n := n) v (by omega), List.getD_eq_getElem?_getD,
      List.getElem?_take_of_lt (by omega), ← List.getD_eq_getElem?_getD]
  · rw [if_neg (by omega), if_neg hj]

/-- Settles O40: every access is legal, a write takes the bytes of its value in order, and a read puts them back in order. -/
theorem windowAccessesAreLittleEndian : Obligations.WindowAccessesAreLittleEndian := by
  refine fun s off n i hi halign => ⟨fun hoff v hidle => ?_, fun hoff => ?_, fun hoff hidle => ?_, fun hoff => ?_⟩
  · rw [State.busWrite_inWindow_idle v hi hoff (legal_window 0 hoff halign) hidle]
    exact ⟨rfl, Buffer.read_writeAll_take s.inBuf n v s.params.inCap i⟩
  · exact State.busRead_window_bytes (by omega) (legal_window 0 hoff halign) (region_inWindow hi hoff)
  · have hread := State.busRead_window_bytes (s := s) (by omega) (legal_window 1 hoff halign) (region_outWindow hi hoff)
    simpa [State.windowByte, State.outWindowByte, hidle] using hread
  · refine ⟨?_, State.afterRead_of_no_draw n (by omega)⟩
    rw [s.busRead_window (by omega) (legal_window 2 hoff halign), region_top (by omega)]
    simpa [State.windowByte] using leWord_replicate_zero n.bytes

/-- A legal read of the OUT_BUF window while BUSY = 1 takes a draw (R61). -/
theorem State.afterRead_draws_busy {s : State} {off : Offset} {n : Width} (hl : legal off n = true)
    (hr : region off = .outWindow) (hb : s.busy = true) : (s.afterRead off n).draws = s.draws + 1 := by
  simp [State.readDraws, hl, hr, hb]

/-- Settles O42: the windows by their bytes, RESULT and OUT_LEN as when idle, and STATUS by the invariant. -/
theorem readsWhileBusy : Obligations.ReadsWhileBusy := by
  intro s off n i hinv hb hi halign
  obtain ⟨-, hstatus, -, houtLen, hok, hinput, hstring, hmemory, hencoding, hunknown⟩ := registersReadTheirValues s
  refine ⟨fun hoff => ?_, fun hoff => ?_, hok, hinput, hstring, hmemory, hencoding, hunknown, houtLen, ?_⟩
  · have hl := legal_window 1 hoff halign
    have hplace := region_outWindow hi hoff
    obtain ⟨-, hbytes⟩ := State.busRead_window_bytes (s := s) (by omega) hl hplace
    refine ⟨by rw [s.busRead_window (by omega) hl], State.afterRead_draws_busy hl hplace.1 hb, ?_⟩
    simpa [State.windowByte, State.outWindowByte, hb] using hbytes
  · have hl := legal_window 0 hoff halign
    obtain ⟨-, hbytes⟩ := State.busRead_window_bytes (s := s) (by omega) hl (region_inWindow hi hoff)
    exact ⟨by rw [s.busRead_window (by omega) hl], hbytes⟩
  · have hword := hstatus.2
    rw [hb, hinv.busyNotDone hb] at hword
    refine BitVec.eq_of_toNat_eq ?_
    rw [BitVec.extractLsb'_toNat, hword]
    cases s.ign <;> rfl

/-! ## A running command and its input (R60) -/

/-- While BUSY = 1 no host write reaches CUR, IN_LEN, IN_BUF or BUSY. -/
theorem State.busWrite_input_of_busy {s : State} (off : Offset) (n : Width) (v : Word) (hb : s.busy = true) :
    (s.busWrite off n v).cur = s.cur ∧ (s.busWrite off n v).inLen = s.inLen ∧
    (s.busWrite off n v).inBuf = s.inBuf ∧ (s.busWrite off n v).busy = true := by
  rcases s.busWrite_cases off n v with h | ⟨-, h⟩ | ⟨hidle, -⟩ | ⟨-, -, h⟩ | ⟨hidle, -⟩ | ⟨hidle, -⟩
  case inr.inr.inl | inr.inr.inr.inr.inl | inr.inr.inr.inr.inr => simp [hb] at hidle
  all_goals rw [h]; simp [hb]

/-- Settles O47, by everything a step can do to the block. -/
theorem inputIsStableWhileBusy : Obligations.InputIsStableWhileBusy := by
  intro s t h hb hassert hrelease
  rcases step_block_cases h with ⟨hm, -⟩ | ⟨n, off, v, -, -, rfl⟩ | ⟨hm | hm, -⟩ | ⟨k, d, g, -, -, rfl⟩
  · obtain ⟨r, hr⟩ := step_engine hm
    cases hr.symm.trans h
    obtain ⟨-, -, hinLen, hcur, hinBuf, -⟩ := s.complete_frame r
    exact ⟨hcur, hinLen, hinBuf, .inr hm⟩
  · obtain ⟨hcur, hinLen, hinBuf, hbusy⟩ := s.hostTurn.busWrite_input_of_busy off n (s.hostTurn.host.operand v) hb
    exact ⟨hcur, hinLen, hinBuf, .inl hbusy⟩
  · exact absurd hm hassert
  · exact absurd hm hrelease
  · exact ⟨rfl, rfl, rfl, .inl hb⟩

/-! ## The lengths of the computed texts (R113, R136, R157) -/

/-- A separator for each 19 groups that more groups follow is one for each 76 symbols that more symbols follow (R116). -/
theorem encodeSeps_eq (wrap : Bool) (n : Nat) : encodeSeps wrap n = if wrap then (encodeGroups n - 1) / 19 else 0 := by
  unfold encodeSeps encodeChars
  split <;> omega

@[simp] theorem encodeGroup_length (k : Nat) (b0 b1 b2 : Byte) : (encodeGroup k b0 b1 b2).length = 4 := rfl

/-- With W = 1 a group that completes a line of 19, and that more input follows, brings two characters more (R116). -/
theorem lineBreak_length (wrap : Bool) (g : Nat) {rest : List Byte} (h : rest ≠ []) :
    (lineBreak wrap g rest).length = 2 * (if wrap then (g + 1) / 19 - g / 19 else 0) := by
  have hmore : rest.isEmpty = false := by simpa using h
  unfold lineBreak
  rw [hmore]
  cases wrap with
  | false => rfl
  | true =>
    by_cases hline : (g + 1) % 19 = 0
    · rw [if_pos (by simpa using hline), if_pos rfl, List.length_cons, List.length_singleton]
      omega
    · rw [if_neg (by simpa using hline), if_pos rfl, List.length_nil]
      omega

/-- The characters of the groups from number `g` on: four a group, and two more for each line that ends before the last group. -/
theorem encodeFrom_length (wrap : Bool) (g : Nat) {x : List Byte} (hx : x ≠ []) :
    (encodeFrom wrap g x).length + 2 * (if wrap then g / 19 else 0) =
      4 * encodeGroups x.length + 2 * (if wrap then (g + encodeGroups x.length - 1) / 19 else 0) := by
  unfold encodeGroups
  induction g, x using encodeFrom.induct with
  | case1 g => exact absurd rfl hx
  | case2 g b0 => simp [encodeFrom]
  | case3 g b0 b1 => simp [encodeFrom]
  | case4 g b0 b1 b2 rest ih =>
    rcases eq_or_ne rest [] with rfl | hrest
    · simp [encodeFrom, lineBreak]
    · have hnext := ih hrest
      simp only [encodeFrom, List.length_append, encodeGroup_length, lineBreak_length wrap g hrest, List.length_cons]
      cases wrap with
      | false =>
        simp only [Bool.false_eq_true, if_false] at hnext ⊢
        omega
      | true =>
        simp only [if_true] at hnext ⊢
        omega

/-- ENCODE writes as many characters as it computes (R110, R113). -/
theorem encodeText_length (wrap : Bool) (x : List Byte) : (encodeText wrap x).length = encodeLen wrap x.length := by
  unfold encodeLen
  rw [encodeSeps_eq, encodeChars]
  by_cases hx : x = []
  · cases wrap <;> simp [hx, encodeText, encodeFrom, encodeGroups]
  · simpa [encodeText] using encodeFrom_length wrap 0 hx

/-- A text that does not begin with four characters is shorter than that. -/
theorem length_lt_four {y : List Byte} (h : ∀ c0 c1 c2 c3 cs, y = c0 :: c1 :: c2 :: c3 :: cs → False) : y.length < 4 := by
  match y with
  | [] | [_] | [_, _] | [_, _, _] => simp
  | c0 :: c1 :: c2 :: c3 :: cs => exact absurd rfl (h c0 c1 c2 c3 cs)

@[simp] theorem groupBytes_length (acc : Group) : (groupBytes acc).length = 3 := rfl

/-- Three bytes for each whole group of four characters (R138). -/
theorem unpackGroups_length (y : List Byte) : (unpackGroups y).length = 3 * (y.length / 4) := by
  induction y using unpackGroups.induct with
  | case1 c0 c1 c2 c3 cs ih =>
    simp only [unpackGroups, groupBytes_length, List.length_append, List.length_cons, ih]
    omega
  | case2 y hy => simpa [unpackGroups] using length_lt_four hy

/-- `m` of R134 is the number of meaningful characters. -/
theorem meaningful_length (x : List Byte) : (meaningful x).length = meanCount x := by
  have hsplit : x.length = sepCount x + (meaningful x).length := by
    simpa [sepCount, meaningful, show isMean = fun b => !isSep b from rfl, List.countP_eq_length_filter]
      using x.length_eq_countP_add_countP isSep
  unfold meanCount
  omega

/-- DECODE of whole groups writes as many bytes as it computes (R136, R138). -/
theorem decodeText_length {x : List Byte} (h : meanCount x % 4 = 0) : (decodeText x).length = decodeLen x := by
  unfold decodeText decodeLen
  rw [List.length_take, unpackGroups_length, meaningful_length]
  omega

/-- The fixed-stride loop gives three bytes a group, where the content is long enough for the groups and the separators that it
steps over between them (R158). -/
theorem fastGroups_length (stride : Bool) (k cc : Nat) (c : List Byte)
    (h : 4 * k + (if stride then 2 * ((cc + k - 1) / 19) else 0) ≤ c.length) :
    (fastGroups stride k cc c).1.length = 3 * k := by
  induction k, cc, c using fastGroups.induct stride with
  | case1 => rfl
  | case2 k cc c0 c1 c2 c3 cs ihBreak ihNext =>
    simp only [List.length_cons] at h
    simp only [fastGroups, List.length_append, groupBytes_length]
    cases stride with
    | false =>
      have hnext := ihNext (by simp at h ⊢; omega)
      simp [hnext]
      omega
    | true =>
      simp only [if_true, List.length_drop] at h ihBreak ihNext
      by_cases hline : cc + 1 = 19
      · rw [if_pos (by simpa using hline), ihBreak (by omega)]
        omega
      · rw [if_neg (by simpa using hline), ihNext (by omega)]
        omega
  | case3 k cc c hc =>
    have := length_lt_four hc
    omega

/-- The content is long enough for the groups of its output length: without its separators it is four bytes a group, and there
are two separators a line of 76 (R156, R157). -/
theorem fastLen_groups_fit (c : List Byte) :
    4 * (fastLen c / 3) + (if decide (0 < fastSep c) then 2 * ((0 + fastLen c / 3 - 1) / 19) else 0) ≤ c.length := by
  have hlen : fastLen c ≤ (c.length - fastSep c) * 6 / 8 := Nat.sub_le _ _
  by_cases hwrapped : fastWrapped c = true
  · have hsep : fastSep c = 2 * (c.length / 78) := if_pos hwrapped
    rw [hsep] at hlen ⊢
    split <;> omega
  · have hsep : fastSep c = 0 := if_neg hwrapped
    rw [hsep] at hlen ⊢
    simp
    omega

/-- DECODE_FAST writes as many bytes as it computes, on any content (R157 to R159). -/
theorem fastText_length (c : List Byte) : (fastText c).length = fastLen c := by
  have hgroups := fastGroups_length _ _ 0 c (fastLen_groups_fit c)
  simp only [fastText, List.length_append, hgroups, List.length_take, groupBytes_length]
  omega

/-! ## What a command's outcome depends on (R11, R67) -/

/-- A completion that is no draw and holds every byte that it counts, so that nothing it leaves is left from before. -/
def Completion.Determined : Completion → Prop
  | .finish _ len bytes => len ≤ bytes.length
  | .draw => False

/-- The last check passes the computed bytes on (R174). -/
theorem fitted_determined (outCap : Nat) {len : Nat} {bs : List Byte} (h : len ≤ bs.length) :
    (fitted outCap len bs).Determined := by
  rcases fitted_cases outCap len bs with ⟨-, hf⟩ | ⟨-, hf⟩ <;> rw [hf]
  · exact Nat.zero_le _
  · exact h

theorem encodeOp_determined (wrap : Bool) (outCap : Nat) (x : List Byte) : (encodeOp wrap outCap x).Determined :=
  fitted_determined outCap (encodeText_length wrap x).ge

theorem decodeOp_determined (outCap : Nat) (x : List Byte) : (decodeOp outCap x).Determined := by
  unfold decodeOp
  split
  · exact Nat.zero_le _
  · next hgroups =>
    split
    · exact Nat.zero_le _
    · exact fitted_determined outCap (decodeText_length (by simpa using hgroups)).ge

/-- Under FastPre the trusting decoder draws nothing (R161). -/
theorem decodeFastOp_determined (outCap : Nat) {x : List Byte} (h : fastPre x = true) :
    (decodeFastOp outCap x).Determined := by
  unfold decodeFastOp
  rw [h]
  split
  · exact Nat.zero_le _
  · exact fitted_determined outCap (fastText_length (content x)).ge

/-- The common checks are determined where the operation is, on the input that reaches it (R172). -/
theorem State.checked_determined (s : State) (a : Bool) (c : Code) {op : Nat → List Byte → Completion}
    (hop : a = false → 1 ≤ s.inLen.toNat → s.inLen.toNat ≤ s.params.inCap →
      (op s.params.outCap (s.inBytes s.inLen.toNat)).Determined) : (s.checked a c op).Determined := by
  rcases s.checked_cases a c op with ⟨-, hc⟩ | ⟨-, -, hc⟩ | ⟨-, -, hc⟩ | ⟨ha, h1, h2, hc⟩ <;> rw [hc]
  case inr.inr.inr => exact hop ha h1 h2
  all_goals exact Nat.zero_le _

/-- Two states that agree on the capacities, IN_LEN and the bytes a present input has answer the common checks alike (R172). -/
theorem State.checked_congr {s s' : State} {a : Bool} (hparams : s.params = s'.params) (hinLen : s.inLen = s'.inLen)
    (hbytes : a = false → s.inLen.toNat ≤ s.params.inCap → s.inBytes s.inLen.toNat = s'.inBytes s.inLen.toNat)
    (c : Code) (op : Nat → List Byte → Completion) : s.checked a c op = s'.checked a c op := by
  unfold State.checked
  rw [← hparams, ← hinLen]
  cases a with
  | true => rfl
  | false =>
    by_cases hcap : s.params.inCap < s.inLen.toNat
    · simp [hcap]
    · rw [hbytes rfl (Nat.le_of_not_lt hcap)]

/-- What the evaluation of a command ends in, at a state (R176). -/
def State.evaluated (s : State) : Instr → Completion
  | .encode w a => s.checked a .inputDataEmpty (encodeOp w)
  | .decode _ a => s.checked a .base64StringEmpty decodeOp
  | .decodeFast _ a => s.checked a .inputDataEmpty decodeFastOp
  | .reserved _ _ => .finish .unknownError 0 []

theorem exec_eq_evaluated (i : Instr) (s : State) : exec i s = .next (s.complete (s.evaluated i)) := by
  cases i <;> rfl

/-- Only the draw of R161 is not determined. -/
theorem State.evaluated_determined {s : State} {i : Instr} (h : ¬ s.outcomeDrawn i) : (s.evaluated i).Determined := by
  cases i with
  | encode w a => exact s.checked_determined a _ fun _ _ _ => encodeOp_determined w _ _
  | decode w a => exact s.checked_determined a _ fun _ _ _ => decodeOp_determined _ _
  | decodeFast w a =>
    refine s.checked_determined a _ fun ha h1 h2 => decodeFastOp_determined _ ?_
    by_contra hpre
    exact h ⟨rfl, ha, h1, h2, by simpa using hpre⟩
  | reserved w a => exact Nat.zero_le _

/-- The evaluation of a command reads the capacities, IN_LEN and the bytes below IN_LEN of a present input that fits the buffer,
and a reserved command none of these (R67). -/
theorem State.evaluated_congr {s s' : State} {i : Instr} (hparams : s.params = s'.params) (hinLen : s.inLen = s'.inLen)
    (hbytes : i.op ≠ 0b11#2 → i.absent = false → s.inLen.toNat ≤ s.params.inCap →
      s.inBytes s.inLen.toNat = s'.inBytes s.inLen.toNat) : s.evaluated i = s'.evaluated i := by
  cases i with
  | encode w a => exact State.checked_congr hparams hinLen (hbytes (by simp [Instr.op])) _ _
  | decode w a => exact State.checked_congr hparams hinLen (hbytes (by simp [Instr.op])) _ _
  | decodeFast w a => exact State.checked_congr hparams hinLen (hbytes (by simp [Instr.op])) _ _
  | reserved w a => rfl

/-- A determined completion leaves the same code, length and output bytes in every state. -/
theorem State.complete_agree (s s' : State) {r : Completion} (h : r.Determined) :
    (s.complete r).result = (s'.complete r).result ∧ (s.complete r).outLen = (s'.complete r).outLen ∧
    ∀ j, j < (s.complete r).outLen.toNat → (s.complete r).outByte j = (s'.complete r).outByte j := by
  cases r with
  | draw => exact h.elim
  | finish c len bs =>
    refine ⟨rfl, rfl, fun j hj => ?_⟩
    have hwritten : c = .ok ∧ j < (bs.take len).length := by
      rw [State.complete_finish, State.finish_outLen] at hj
      split at hj
      · next hc =>
        have hlen : len % 2 ^ 32 ≤ len := Nat.mod_le _ _
        rw [List.length_take, Nat.min_eq_left h]
        exact ⟨hc, hj.trans_le hlen⟩
      · exact absurd hj (Nat.not_lt_zero j)
    simp only [State.complete_finish, State.finish_outByte, if_pos hwritten]

/-- Settles O14: both states evaluate the command to the same completion, and that is determined. -/
theorem commandsReadOnlyTheirInput : Obligations.CommandsReadOnlyTheirInput := by
  intro i s s' hparams hinLen hbytes hdrawn
  have heval : s.evaluated i = s'.evaluated i := State.evaluated_congr hparams hinLen fun hop ha hcap =>
    List.map_congr_left fun j hj => hbytes hop ha hcap j (List.mem_range.mp hj)
  refine ⟨_, _, exec_eq_evaluated i s, exec_eq_evaluated i s', ?_⟩
  rw [← heval]
  exact s.complete_agree s' (State.evaluated_determined hdrawn)

end Sys2Proof.Machine
end

section
/-! PROOFS. The statements of 30_encoding.md: the command words and the opcode table, the alphabet, what each host step does, and the
runs of the pseudo-instructions LOADIN, WAIT and READOUT. -/

namespace Sys2Proof.Machine

/-! ## The fields of a command word (R80, R84) -/

/-- Four adjoining slices of a word, from bit 0 on, are one slice. -/
theorem slices_append {n : Nat} (x : BitVec n) (a b c d : Nat) :
    x.extractLsb' (a + b + c) d ++ x.extractLsb' (a + b) c ++ x.extractLsb' a b ++ x.extractLsb' 0 a =
      x.extractLsb' 0 (d + c + b + a) := by
  rw [BitVec.extractLsb'_append_extractLsb'_eq_extractLsb' rfl,
    BitVec.extractLsb'_append_extractLsb'_eq_extractLsb' rfl,
    BitVec.extractLsb'_append_extractLsb'_eq_extractLsb' (Nat.zero_add a).symm]

/-- A bit is the slice of length 1 at its place. -/
theorem ofBool_getLsbD {n : Nat} (x : BitVec n) (k : Nat) : BitVec.ofBool (x.getLsbD k) = x.extractLsb' k 1 := by
  ext i hi
  simp [Nat.lt_one_iff.mp hi]

/-- The bit just above the lower part of a word put together from parts. -/
theorem getLsbD_append_ofBool {m n : Nat} (x : BitVec m) (b : Bool) (y : BitVec n) :
    (x ++ BitVec.ofBool b ++ y).getLsbD n = b := by
  rw [BitVec.getLsbD_append, if_neg (Nat.lt_irrefl n), Nat.sub_self, BitVec.getLsbD_append, if_pos Nat.one_pos]
  simp

section
variable (x : BitVec 28) (i : Instr)

theorem cmdOp_encodeWith : cmdOp (encodeWith x i) = i.op :=
  (BitVec.extractLsb'_append_eq_of_add_le le_rfl).trans BitVec.extractLsb'_eq_self

theorem cmdWrap_encodeWith : cmdWrap (encodeWith x i) = i.wrap :=
  getLsbD_append_ofBool (x ++ BitVec.ofBool i.absent) i.wrap i.op

theorem cmdAbsent_encodeWith : cmdAbsent (encodeWith x i) = i.absent :=
  BitVec.getLsbD_append.trans (getLsbD_append_ofBool x i.absent (BitVec.ofBool i.wrap))

/-- The fields select the command again, whatever stands in bits 31:4 (R84). -/
theorem decodeWord_encodeWith : decodeWord (encodeWith x i) = i := by
  rw [decodeWord, cmdOp_encodeWith, cmdWrap_encodeWith, cmdAbsent_encodeWith]
  cases i <;> rfl

end

/-- A word is put together from its four fields (R80). -/
theorem cmdFields_append (w : Word) :
    cmdIgnored w ++ BitVec.ofBool (cmdAbsent w) ++ BitVec.ofBool (cmdWrap w) ++ cmdOp w = w := by
  rw [cmdAbsent, cmdWrap, ofBool_getLsbD, ofBool_getLsbD]
  exact (slices_append w 2 1 1 28).trans BitVec.extractLsb'_eq_self

/-- The command that three fields select carries these fields (R81). -/
theorem decodeFields_fields : ∀ (op : BitVec 2) (w a : Bool),
    (decodeFields op w a).op = op ∧ (decodeFields op w a).wrap = w ∧ (decodeFields op w a).absent = a := by
  decide

theorem encodeWith_decodeWord (w : Word) : encodeWith (cmdIgnored w) (decodeWord w) = w := by
  obtain ⟨hop, hwrap, habsent⟩ := decodeFields_fields (cmdOp w) (cmdWrap w) (cmdAbsent w)
  rw [encodeWith, decodeWord, hop, hwrap, habsent]
  exact cmdFields_append w

/-! ## Decoding byte strings -/

/-- The decoder takes a word's four bytes for that word. -/
theorem decode_wordBytes (w : Word) (rest : List Byte) : decode (wordBytes w ++ rest) = .ok (decodeWord w, rest) := by
  have hbytes : w.extractLsb' 24 8 ++ w.extractLsb' 16 8 ++ w.extractLsb' 8 8 ++ w.extractLsb' 0 8 = w :=
    (slices_append w 8 8 8 8).trans BitVec.extractLsb'_eq_self
  simp only [wordBytes, List.cons_append, List.nil_append, decode, hbytes]

theorem decode_short {bs : List Byte} (h : bs.length < 4) : decode bs = .error (.short bs.length) := by
  unfold decode
  split
  · simp only [List.length_cons] at h
    omega
  · rfl

/-- Settles O2: a word's bytes are taken for the word, and its fields are the command's and bits 31:4. -/
theorem decodeAndEncodeAgree : Obligations.DecodeAndEncodeAgree := by
  refine ⟨fun x i rest => ?_, encodeWith_decodeWord, fun bs => decode_short⟩
  rw [decode_wordBytes, decodeWord_encodeWith]

/-- Settles O1. -/
theorem commandWordsDecode : Obligations.CommandWordsDecode := by
  refine ⟨?_, ?_, ?_, ?_, ?_, ?_, ?_, ?_, ?_, ?_⟩ <;> rfl

/-! ## The opcode table (R86) -/

/-- The mask of the opcode table's rows keeps OP alone. -/
theorem and_opMask (w : Word) : w &&& 0x3 = (cmdOp w).setWidth 32 := by
  refine BitVec.eq_of_toNat_eq ?_
  have hmask : w.toNat &&& 3 = w.toNat % 4 := Nat.and_two_pow_sub_one_eq_mod _ 2
  simp [cmdOp, hmask]
  omega

theorem opcodeTable_mask : ∀ r ∈ opcodeTable, r.mask = 0x3 := by decide

/-- A row's match is an OP exactly when the row names the operation that this OP selects, with any W and A. -/
theorem opcodeTable_fixed_iff : ∀ r ∈ opcodeTable, ∀ (op : BitVec 2) (w a : Bool),
    op.setWidth 32 = r.fixed ↔ r.mnemonic = (decodeFields op w a).mnemonic := by decide

/-- Every OP selects an operation that has a row. -/
theorem exists_row_of_decodeFields : ∀ (op : BitVec 2) (w a : Bool),
    ∃ r ∈ opcodeTable, r.mnemonic = (decodeFields op w a).mnemonic := by decide

/-- W and A do not pick the row. -/
theorem decodeFields_mnemonic : ∀ (op : BitVec 2) (w a w' a' : Bool),
    (decodeFields op w a).mnemonic = (decodeFields op w' a').mnemonic := by decide

/-- Settles O3: masked, a word is its OP, and the four values of OP have one row each. -/
theorem everyWordSelectsOneCommand : Obligations.EveryWordSelectsOneCommand := by
  refine ⟨fun w r hr => ?_, fun w => exists_row_of_decodeFields (cmdOp w) _ _, fun w v hop => ?_⟩
  · rw [opcodeTable_mask r hr, and_opMask]
    exact opcodeTable_fixed_iff r hr (cmdOp w) (cmdWrap w) (cmdAbsent w)
  · have hfields : cmdOp w = cmdOp v := hop
    rw [decodeWord, hfields]
    exact decodeFields_mnemonic (cmdOp v) _ _ _ _

/-! ## Writes of a command word -/

/-- CUR latches nothing of bits 31:4 (R84). -/
theorem latch_and_low (v : Word) : latch (v &&& 0xF) = latch v := by
  have hop : cmdOp (v &&& 0xF) = cmdOp v := BitVec.extractLsb'_and.trans BitVec.and_allOnes
  have hwrap : cmdWrap (v &&& 0xF) = cmdWrap v := by simp [cmdWrap]
  have habsent : cmdAbsent (v &&& 0xF) = cmdAbsent v := by simp [cmdAbsent]
  rw [latch, latch, hop, hwrap, habsent]

/-- Settles O37: of the word a CMD write uses only what CUR latches. -/
theorem ignoredCommandBitsHaveNoEffect : Obligations.IgnoredCommandBitsHaveNoEffect := by
  intro s v
  rw [s.busWrite_reg v (by decide) rfl, s.busWrite_reg (v &&& 0xF) (by decide) rfl]
  change s.writeCmd v = s.writeCmd (v &&& 0xF)
  unfold State.writeCmd State.start
  rw [latch_and_low]

/-- CUR holds the command of the word that started it (R175). -/
theorem State.start_instr (s : State) (v : Word) : (s.start v).cur.instr = decodeWord v := rfl

/-- Settles O8: the reserved command ends without output, and it is latched as any other. -/
theorem reservedCompletesWithUnknownError : Obligations.ReservedCompletesWithUnknownError := by
  refine ⟨fun s _ _ => congrArg Host.Outcome.next (s.finish_nil .unknownError), fun s v hop hidle => ?_⟩
  have hreserved : cmdOp v = 0b11#2 := hop
  rw [State.busWrite_cmd_idle v hidle, State.start_instr, decodeWord, hreserved]
  exact ⟨rfl, rfl, rfl⟩

/-! ## ALPHA, TABLE and the byte classes (R87 to R93) -/

/-- Settles O57. -/
theorem fixedBytesAreThoseOfTheSpec : Obligations.FixedBytesAreThoseOfTheSpec :=
  ⟨by decide, rfl, rfl, rfl⟩

@[simp] theorem table_alpha : ∀ i : Sextet, table (alpha i) = some i := by decide

/-- A byte with a TABLE value is the alphabet byte at that value (R92). -/
theorem alpha_of_table {b : Byte} {i : Sextet} (h : table b = some i) : alpha i = b := by
  have hall : ∀ b : Byte, (table b).all (fun i => alpha i == b) = true := by decide
  simpa [h] using hall b

/-- The symbols are the bytes of the alphabet (R92). -/
theorem isSymbol_iff (b : Byte) : isSymbol b = true ↔ ∃ i : Sextet, alpha i = b := by
  rw [isSymbol, Option.isSome_iff_exists]
  exact ⟨fun ⟨i, hi⟩ => ⟨i, alpha_of_table hi⟩, fun ⟨i, hi⟩ => ⟨i, hi ▸ table_alpha i⟩⟩

/-- Settles O4. -/
theorem tableInvertsAlphabet : Obligations.TableInvertsAlphabet :=
  ⟨fun b => Option.isSome_iff_ne_none.symm.trans (isSymbol_iff b), table_alpha⟩

/-- The padding byte is no symbol (R89). -/
theorem isSymbol_padByte : isSymbol padByte = false := by decide

/-- Settles O5, by the symbols being the bytes of the alphabet. -/
theorem byteClassesOfTheDecoders : Obligations.ByteClassesOfTheDecoders := by
  refine ⟨fun i hi => ?_, fun b => ?_, fun _ => rfl, fun i => by rw [val, table_alpha, Option.getD_some], by decide⟩
  · have hpad : isSymbol padByte = true := (isSymbol_iff padByte).mpr ⟨i, hi⟩
    rw [isSymbol_padByte] at hpad
    cases hpad
  · rw [← isSymbol_iff]
    simp [isSep]

/-! ## The host's steps out of reset (R96, R97) -/

/-- The turn of a host step and the effect of a read are independent. -/
theorem State.afterRead_hostTurn (s : State) (off : Offset) (n : Width) :
    s.hostTurn.afterRead off n = { s.afterRead off n with slack := s.slack - 1, host := s.host.advance } := by
  have hdraws : (s.hostTurn.afterRead off n).draws = (s.afterRead off n).draws := by
    rw [State.afterRead_draws, State.afterRead_draws]
    rfl
  rw [s.hostTurn.afterRead_eq, hdraws, s.afterRead_eq]
  rfl

/-- A load, as one update: its read's effect, its variable and its response (R96). -/
theorem State.hostStep_load {s : State} (hr : s.rst = false) (n : Width) (off : Offset) (r : Nat) :
    s.hostStep (.load n off r) = .next { s.afterRead off n with
      slack := s.slack - 1
      host := { s.host.advance.setVar r (s.busRead off n).2 with resp := some (s.busRead off n) } } := by
  have hstep : s.hostStep (.load n off r) = .next (s.hostTurn.hostLoad n off r) := if_neg (by simp [hr])
  rw [hstep, State.hostLoad_eq, State.afterRead_hostTurn]
  rfl

/-- A start sets `slack` whatever the turn left. -/
theorem State.start_hostTurn (s : State) (v : Word) : s.hostTurn.start v = { s.start v with host := s.host.advance } := rfl

/-- A write to a register does to the block what it does before the turn; a start sets `slack` anew (log 5). -/
theorem State.writeReg_hostTurn (s : State) (off : Nat) (v : Word) :
    s.hostTurn.writeReg off v = { s.writeReg off v with
      slack := if s.busy = false ∧ off = 0x000 then s.nextLatency else s.slack - 1
      host := s.host.advance } := by
  unfold State.writeReg State.writeCmd State.writeInLen
  rw [State.hostTurn_busy]
  by_cases h0 : off = 0x000
  · cases hb : s.busy <;> simp [h0, State.start_hostTurn, State.dropWrite, hb]
  · by_cases h4 : off = 0x004
    · rw [State.writeStatus_eq, State.writeStatus_eq]
      simp [h4]
    · by_cases h8 : off = 0x008
      · cases hb : s.busy <;> simp [h8, State.dropWrite, hb]
      · simp [h0, h4, h8]
        rfl

/-- A write to the IN_BUF window does to the block what it does before the turn. -/
theorem State.writeInWindow_hostTurn (s : State) (i : Nat) (bs : List Byte) :
    s.hostTurn.writeInWindow i bs = { s.writeInWindow i bs with slack := s.slack - 1, host := s.host.advance } := by
  unfold State.writeInWindow
  rw [State.hostTurn_busy, State.hostTurn_params]
  cases s.busy
  · rfl
  · by_cases hi : i < s.params.inCap
    · simp only [if_pos hi]; rfl
    · simp only [if_neg hi]; rfl

/-- A host write does to the block what it does before the turn, and `slack` is what the turn leaves unless a start sets it. -/
theorem State.busWrite_hostTurn (s : State) (off : Offset) (n : Width) (v : Word) :
    s.hostTurn.busWrite off n v = { s.busWrite off n v with
      slack := if s.busy = false ∧ legal off n = true ∧ off.toNat = 0x000 then s.nextLatency else s.slack - 1
      host := s.host.advance } := by
  by_cases hl : legal off n = true
  · by_cases hreg : off.toNat < 0x10000
    · rw [State.busWrite_reg _ v hreg hl, State.busWrite_reg _ v hreg hl, State.writeReg_hostTurn]
      simp [hl]
    · rw [if_neg (by omega)]
      by_cases hwin : off.toNat < 0x20000
      · rw [State.busWrite_inWindow _ v (by omega) hwin hl, State.busWrite_inWindow _ v (by omega) hwin hl,
          State.writeInWindow_hostTurn]
      · rw [State.busWrite_above _ n v (by omega), State.busWrite_above _ n v (by omega)]
        rfl
  · simp [State.busWrite, hl]
    rfl

/-- A store, as one update: its write's effect and its response (R96). -/
theorem State.hostStep_store_eq {s : State} (hr : s.rst = false) (n : Width) (off : Offset) (v : Operand) :
    s.hostStep (.store n off v) = .next { s.busWrite off n (s.host.operand v) with
      slack := if s.busy = false ∧ legal off n = true ∧ off.toNat = 0x000 then s.nextLatency else s.slack - 1
      host := { s.host.advance with resp := some (writeResp off n, 0) } } := by
  have hstep : s.hostStep (.store n off v) = .next (s.hostTurn.hostStore n off v) := if_neg (by simp [hr])
  rw [hstep, State.hostStore, State.busWrite_hostTurn, State.hostTurn_host, HostState.advance_operand]
  rfl

/-- A branch is one update of the host's place (R96). -/
theorem State.hostBranch_eq (s : State) (r : Nat) (m : Word) (l : Nat) :
    s.hostBranch r m l =
      { s with host := { s.host with pos := if s.host.getVar r &&& m ≠ 0 then l else s.host.pos } } := by
  unfold State.hostBranch
  split <;> rfl

/-- A branch, as one update with its turn (R96). -/
theorem State.hostStep_bnz (s : State) (r : Nat) (m : Word) (l : Nat) :
    s.hostStep (.bnz r m l) = .next { s with
      slack := s.slack - 1
      host := { s.host.advance with pos := if s.host.getVar r &&& m ≠ 0 then l else s.host.advance.pos } } :=
  congrArg Host.Outcome.next (s.hostTurn.hostBranch_eq r m l)

/-- The first step of a READOUT, as one update of the host's own state (R97). -/
theorem State.hostStep_readOut {s : State} (hr : s.rst = false) (len o : Nat) :
    s.hostStep (.readOut len o) = .next { s with
      slack := s.slack - 1
      host := { s.host.advance.setVar len s.outLen with
        pending := Script.outLoads o s.outLen.toNat ++ s.host.advance.pending
        resp := some (.okay, s.outLen) } } := by
  have hstep : s.hostStep (.readOut len o) = .next (s.hostTurn.hostReadOut len o) := if_neg (by simp [hr])
  rw [hstep, State.hostReadOut_eq]
  rfl

/-- Settles O51, by the one update that each step is. -/
theorem hostScriptSteps : Obligations.HostScriptSteps := by
  intro s hr
  refine ⟨fun n off r => ⟨_, State.hostStep_load hr n off r, rfl, rfl, ?_, fun q hq => ?_⟩,
    fun n off v => ⟨_, State.hostStep_store_eq hr n off v, rfl⟩, s.hostStep_bnz,
    fun len o => ⟨_, State.hostStep_readOut hr len o, rfl, rfl, ?_, fun q hq => ?_⟩,
    HostState.advance_nil, fun op ops => HostState.advance_cons⟩
  · exact HostState.getVar_setVar_same s.host.advance r _
  · exact HostState.getVar_setVar_ne s.host.advance _ hq
  · exact HostState.getVar_setVar_same s.host.advance len _
  · exact HostState.getVar_setVar_ne s.host.advance _ hq

/-! ## Runs of the host's pseudo-instructions (R97) -/

/-- The host makes its next step while BUSY = 0 or a host step still fits before the completion (R180, log 5). -/
theorem step_host_of_slack {s : State} {op : HostOp} (hslack : s.busy = true → 1 ≤ s.slack)
    (hn : s.host.nextOp = some op) : step s = s.hostStep op := by
  cases hb : s.busy with
  | false => exact step_host_idle hb hn
  | true =>
    refine step_host ?_
    have hroom := hslack hb
    simp [State.mover, hn, show s.slack ≠ 0 by omega]

/-! ### WAIT -/

/-- The mask of WAIT's branch keeps BUSY alone (R24, R97). -/
theorem State.statusWord_and_one (s : State) : s.statusWord &&& 0x1 ≠ 0 ↔ s.busy = true := by
  unfold State.statusWord
  cases s.busy <;> cases s.done <;> cases s.ign <;> decide

/-- A read of STATUS (R24). -/
theorem State.busRead_status (s : State) : s.busRead 0x004 .word = (.okay, s.statusWord) :=
  s.busRead_reg (by decide) (by decide)

/-- A load of STATUS by the host, which leaves the block as it was (R24, R58). -/
theorem step_loadStatus {s : State} {st : Nat} (hr : s.rst = false) (hslack : s.busy = true → 1 ≤ s.slack)
    (hpend : s.host.pending = []) (hn : s.host.nextOp = some (Script.ldw 0x004 st)) :
    ∃ t, step s = .next t ∧ t = { s with
      slack := s.slack - 1
      host := { s.host.setVar st s.statusWord with pos := s.host.pos + 1, resp := some (.okay, s.statusWord) } } := by
  refine ⟨_, ?_, rfl⟩
  rw [step_host_of_slack hslack hn, Script.ldw, State.hostStep_load hr, s.busRead_status, s.afterRead_regs .word (by decide),
    HostState.advance_nil hpend]
  rfl

/-- Settles O59: a load of STATUS, which has no effect on the block, and a branch on BUSY. -/
theorem waitPollsStatus : Obligations.WaitPollsStatus := by
  intro s st pre post hr hslack hprog hpos hpend
  have hfirst : s.host.nextOp = some (Script.ldw 0x004 st) :=
    HostState.nextOp_at (post := .bnz st 0x1 pre.length :: post) (by simp [hprog, Script.waitAt]) hpos hpend
  obtain ⟨u, hload, hu⟩ := step_loadStatus hr (fun hb => Nat.le_of_succ_le (hslack hb)) hpend hfirst
  have hsecond : u.host.nextOp = some (.bnz st 0x1 pre.length) :=
    HostState.nextOp_at (pre := pre ++ [Script.ldw 0x004 st]) (post := post) (by simp [hu, hprog, Script.waitAt])
      (by simp [hu, hpos]) (by simp [hu, hpend])
  have hroom : u.busy = true → 1 ≤ u.slack := by
    subst hu
    exact fun hb => Nat.le_sub_of_add_le (hslack hb)
  have hvar : u.host.getVar st = s.statusWord := by
    subst hu
    exact HostState.getVar_setVar_same s.host st _
  have hbranch := (step_host_of_slack hroom hsecond).trans (u.hostStep_bnz st 0x1 pre.length)
  refine ⟨_, (core_run_succ hload).trans (core_run_succ hbranch), ?_⟩
  rw [s.busRead_status]
  refine ⟨hvar, ?_, ?_⟩
  · subst hu
    exact fun q hq => HostState.getVar_setVar_ne s.host _ hq
  · rw [HostState.advance_nil (by simp [hu, hpend]), hvar]
    simp only [s.statusWord_and_one]
    simp [hu, hpos, Nat.sub_sub]

/-! ### LOADIN -/

/-- The bytes of a stored byte. -/
theorem leBytes_byte (b : Byte) : leBytes .byte (b.setWidth 32) = [b] := by
  have hbyte : (b.setWidth 32).extractLsb' 0 8 = b := by
    rw [← BitVec.setWidth_eq_extractLsb' (by decide), BitVec.setWidth_setWidth_of_le b (by decide), BitVec.setWidth_eq]
  simp [leBytes, Width.bytes, hbyte]

/-- A byte and then the bytes after it, each cut off at a capacity, are one run cut off there. -/
theorem Buffer.writeAll_take_cons (buf : Buffer) (cap i : Nat) (b : Byte) (bs : List Byte) :
    (buf.writeAll i ([b].take (cap - i))).writeAll (i + 1) (bs.take (cap - (i + 1))) =
      buf.writeAll i ((b :: bs).take (cap - i)) := by
  rcases Nat.lt_or_ge i cap with hi | hi
  · rw [show cap - i = (cap - (i + 1)) + 1 by omega, List.take_succ_cons, List.take_succ_cons, List.take_nil]
    rfl
  · rw [Nat.sub_eq_zero_of_le hi, Nat.sub_eq_zero_of_le (Nat.le_succ_of_le hi)]
    simp

/-- A byte store into the IN_BUF window by an idle block's host (R55, R96). -/
theorem step_storeByte {s : State} {i : Nat} {b : Byte} (hidle : s.busy = false) (hr : s.rst = false) (hi : i < 0x10000)
    (hpend : s.host.pending = [])
    (hn : s.host.nextOp = some (Script.stb (BitVec.ofNat 18 (0x10000 + i)) (.imm (b.setWidth 32)))) :
    ∃ t, step s = .next t ∧ t = { s with
      inBuf := s.inBuf.writeAll i ([b].take (s.params.inCap - i))
      slack := s.slack - 1
      host := { s.host with pos := s.host.pos + 1, resp := some (.okay, 0) } } := by
  have hoff : (BitVec.ofNat 18 (0x10000 + i)).toNat = 0x10000 + i := Nat.mod_eq_of_lt (by omega)
  have hl : legal (BitVec.ofNat 18 (0x10000 + i)) .byte = true := legal_window 0 hoff (Nat.mod_one i)
  refine ⟨_, ?_, rfl⟩
  rw [step_host_idle hidle hn, Script.stb, State.hostStep_store_eq hr, if_neg (by omega), HostState.advance_nil hpend,
    State.busWrite_inWindow_idle _ hi hoff hl hidle, HostState.operand, leBytes_byte, writeResp, if_pos hl]

/-- The stores of a LOADIN that stand at an idle block's host's place, the first for index `i` (R97). -/
theorem run_loadBytes {s : State} {i : Nat} {bs : List Byte} {pre post : List HostOp} (hidle : s.busy = false)
    (hr : s.rst = false) (hprog : s.host.prog = pre ++ Script.loadBytes i bs ++ post) (hpos : s.host.pos = pre.length)
    (hpend : s.host.pending = []) (hlen : i + bs.length ≤ 0x10000) :
    ∃ t r, Sys2Proof.core.run bs.length s = .next t ∧ t = { s with
      inBuf := s.inBuf.writeAll i (bs.take (s.params.inCap - i))
      slack := s.slack - bs.length
      host := { s.host with pos := pre.length + bs.length, resp := r } } := by
  induction bs generalizing s i pre with
  | nil =>
    refine ⟨s, s.host.resp, rfl, ?_⟩
    rw [List.take_nil, Buffer.writeAll_nil, ← hpos]
    rfl
  | cons b bs ih =>
    rw [List.length_cons] at hlen
    have hn : s.host.nextOp = some (Script.stb (BitVec.ofNat 18 (0x10000 + i)) (.imm (b.setWidth 32))) :=
      HostState.nextOp_at (post := Script.loadBytes (i + 1) bs ++ post) (by simp [hprog, Script.loadBytes]) hpos hpend
    obtain ⟨u, hstep, hu⟩ := step_storeByte hidle hr (by omega) hpend hn
    obtain ⟨t, r, hrun, ht⟩ := ih (s := u) (i := i + 1)
      (pre := pre ++ [Script.stb (BitVec.ofNat 18 (0x10000 + i)) (.imm (b.setWidth 32))])
      (by simp [hu, hidle]) (by simp [hu, hr]) (by simp [hu, hprog, Script.loadBytes]) (by simp [hu, hpos])
      (by simp [hu, hpend]) (by omega)
    refine ⟨t, r, (core_run_succ hstep).trans hrun, ?_⟩
    rw [ht, hu, ← s.inBuf.writeAll_take_cons _ i b bs, List.length_append, List.length_singleton, List.length_cons,
      Nat.sub_sub, Nat.add_assoc, Nat.add_comm 1]

/-- A store into IN_LEN by an idle block's host (R30, R96). -/
theorem step_storeInLen {s : State} {v : Word} (hidle : s.busy = false) (hr : s.rst = false) (hpend : s.host.pending = [])
    (hn : s.host.nextOp = some (Script.stw 0x008 (.imm v))) :
    step s = .next { s with
      inLen := v
      slack := s.slack - 1
      host := { s.host with pos := s.host.pos + 1, resp := some (.okay, 0) } } := by
  rw [step_host_idle hidle hn, Script.stw, State.hostStep_store_eq hr, if_neg (by simp), HostState.advance_nil hpend,
    HostState.operand, State.busWrite_inLen_idle _ hidle]
  rfl

/-- What a buffer reads after bytes cut off at a capacity have been written from index 0 on. -/
theorem Buffer.read_writeAll_take_from_zero (b : Buffer) (cap j : Nat) (bs : List Byte) :
    (b.writeAll 0 (bs.take cap)).read j = if j < bs.length ∧ j < cap then bs.getD j 0 else b.read j := by
  rw [Buffer.read_writeAll, List.length_take]
  by_cases hj : j < bs.length ∧ j < cap
  · rw [if_pos (by omega), if_pos hj, List.getD_eq_getElem?_getD, List.getElem?_take_of_lt (by omega),
      ← List.getD_eq_getElem?_getD, Nat.sub_zero]
  · rw [if_neg (by omega), if_neg hj]

/-- A buffer that reads a byte string at each of its indexes holds it. -/
theorem State.inBytes_eq {s : State} {bs : List Byte} (h : ∀ j, j < bs.length → s.inByte j = bs.getD j 0) :
    s.inBytes bs.length = bs := by
  refine List.ext_getElem (s.inBytes_length bs.length) fun j hj hj' => ?_
  simp [State.inBytes, h j hj', hj']

/-- Settles O52: a store for each byte, and then the store of IN_LEN. -/
theorem loadInPlacesTheInput : Obligations.LoadInPlacesTheInput := by
  intro s bs pre post _ hidle hr hprog hpos hpend hlen
  obtain ⟨u, r, hbytes, hu⟩ := run_loadBytes (i := 0) (bs := bs)
    (post := Script.stw 0x008 (.imm (BitVec.ofNat 32 bs.length)) :: post) hidle hr (by simp [hprog, Script.loadIn]) hpos hpend
    (by omega)
  have hlast : u.host.nextOp = some (Script.stw 0x008 (.imm (BitVec.ofNat 32 bs.length))) :=
    HostState.nextOp_at (pre := pre ++ Script.loadBytes 0 bs) (post := post) (by simp [hu, hprog, Script.loadIn])
      (by simp [hu]) (by simp [hu, hpend])
  have hstep := step_storeInLen (by simp [hu, hidle]) (by simp [hu, hr]) (by simp [hu, hpend]) hlast
  have hread : ∀ j, u.inByte j = if j < bs.length ∧ j < s.params.inCap then bs.getD j 0 else s.inByte j := by
    subst hu
    exact fun j => s.inBuf.read_writeAll_take_from_zero s.params.inCap j bs
  refine ⟨_, (core_run_add hbytes).trans (core_run_succ hstep), Nat.mod_eq_of_lt (by omega),
    fun hfit => State.inBytes_eq fun j hj => (hread j).trans (if_pos ⟨hj, by omega⟩), hread, ?_⟩
  subst hu
  rw [Nat.sub_sub, Nat.add_assoc]

/-! ### READOUT -/

/-- A byte load from the OUT_BUF window by an idle block's host (R55, R96). -/
theorem step_loadOutByte {s : State} {i r : Nat} {ops : List HostOp} (hidle : s.busy = false) (hr : s.rst = false)
    (hi : i < 0x10000) (hcap : i < s.params.outCap)
    (hpend : s.host.pending = Script.ldb (BitVec.ofNat 18 (0x20000 + i)) r :: ops) :
    ∃ t, step s = .next t ∧ t = { s with
      slack := s.slack - 1
      host := { s.host.setVar r ((s.outByte i).setWidth 32) with
        pending := ops, resp := some (.okay, (s.outByte i).setWidth 32) } } := by
  have hoff : (BitVec.ofNat 18 (0x20000 + i)).toNat = 0x20000 + i := Nat.mod_eq_of_lt (by omega)
  have hread : s.busRead (BitVec.ofNat 18 (0x20000 + i)) .byte = (.okay, (s.outByte i).setWidth 32) := by
    obtain ⟨hregion, hplace⟩ := region_outWindow hi hoff
    rw [s.busRead_window (by omega) (legal_window (n := .byte) 1 hoff (Nat.mod_one i)), hregion, hplace]
    simp [Width.bytes, leWord, State.windowByte, State.outWindowByte, hcap, hidle]
  refine ⟨_, ?_, rfl⟩
  rw [step_host_idle hidle (HostState.nextOp_cons hpend), Script.ldb, State.hostStep_load hr, hread,
    State.afterRead_of_no_draw _ (.inl hidle), HostState.advance_cons hpend]
  rfl

/-- What the byte loads of a READOUT for the indexes from `i` to below `i + k` make of the host's own state, `ops` being its
pending steps after them (R97, log 14). -/
structure State.OutLoaded (s : State) (o i k : Nat) (ops : List HostOp) (g : HostState) : Prop where
  prog    : g.prog = s.host.prog
  pos     : g.pos = s.host.pos
  pending : g.pending = ops
  loaded  : ∀ j, i ≤ j → j < i + k → g.getVar (o + j) = (s.outByte j).setWidth 32
  others  : ∀ q, ¬ (o + i ≤ q ∧ q < o + i + k) → g.getVar q = s.host.getVar q

/-- The byte loads of a READOUT by an idle block's host (R97). -/
theorem run_outLoads {s : State} {o i k : Nat} {ops : List HostOp} (hidle : s.busy = false) (hr : s.rst = false)
    (hwindow : i + k ≤ 0x10000) (hcap : i + k ≤ s.params.outCap)
    (hpend : s.host.pending =
      ((List.range' i k).map fun j => Script.ldb (BitVec.ofNat 18 (0x20000 + j)) (o + j)) ++ ops) :
    ∃ g, Sys2Proof.core.run k s = .next { s with slack := s.slack - k, host := g } ∧ s.OutLoaded o i k ops g := by
  induction k generalizing s i with
  | zero =>
    exact ⟨s.host, rfl, rfl, rfl, hpend, fun j _ _ => by omega, fun _ _ => rfl⟩
  | succ k ih =>
    rw [List.range'_succ, List.map_cons, List.cons_append] at hpend
    obtain ⟨u, hstep, hu⟩ := step_loadOutByte hidle hr (by omega) (by omega) hpend
    obtain ⟨g, hrun, hg⟩ := ih (s := u) (i := i + 1) (by simp [hu, hidle]) (by simp [hu, hr]) (by omega)
      (by simp [hu]; omega) (by simp [hu])
    refine ⟨g, (core_run_succ hstep).trans ?_, ?_⟩
    · rw [hrun, hu, Nat.sub_sub, Nat.add_comm 1]
    · have hvars : ∀ q, u.host.getVar q = (s.host.setVar (o + i) ((s.outByte i).setWidth 32)).getVar q := by
        subst hu
        exact fun _ => rfl
      exact {
        prog := by rw [hg.prog, hu]; rfl
        pos := by rw [hg.pos, hu]; rfl
        pending := hg.pending
        loaded := fun j hj1 hj2 => by
          rcases Nat.eq_or_lt_of_le hj1 with rfl | hj
          · rw [hg.others _ (by omega), hvars, HostState.getVar_setVar_same]
          · rw [hg.loaded j hj (by omega), hu]
            rfl
        others := fun q hq => by
          rw [hg.others q (by omega), hvars, HostState.getVar_setVar_ne _ _ (by omega)] }

/-- Settles O56: a load of OUT_LEN, and then a load for each of that many bytes. -/
theorem readOutReadsTheOutput : Obligations.ReadOutReadsTheOutput := by
  intro s len o hwf hfit hidle hr hn
  obtain ⟨-, -, -, hcap⟩ := (Params.wf_iff s.params).mp hwf
  obtain ⟨u, hstep, hu⟩ : ∃ u, step s = .next u ∧ u = _ :=
    ⟨_, (step_host_idle hidle hn).trans (State.hostStep_readOut hr len o), rfl⟩
  obtain ⟨g, hrun, hg⟩ := run_outLoads (s := u) (o := o) (i := 0) (k := s.outLen.toNat) (ops := s.host.advance.pending)
    (by simp [hu, hidle]) (by simp [hu, hr]) (by omega) (by simpa [hu] using hfit)
    (by simp [hu, Script.outLoads, List.range_eq_range'])
  have hvars : ∀ q, u.host.getVar q = (s.host.setVar len s.outLen).getVar q := by
    subst hu
    exact fun _ => rfl
  refine ⟨_, (core_run_succ hstep).trans hrun, fun hlen => ?_, fun i hi => ?_, fun q hq hq' => ?_, ?_, ?_, ?_, hg.pending⟩
  · rw [hg.others len (by omega), hvars, HostState.getVar_setVar_same]
  · rw [hg.loaded i (Nat.zero_le i) (by omega), hu]
    rfl
  · rw [hg.others q (by omega), hvars, HostState.getVar_setVar_ne _ _ hq]
  · rw [hu, Nat.sub_sub, Nat.add_comm 1]
  · rw [hg.prog, hu]
    rfl
  · rw [hg.pos, hu]
    rfl

end Sys2Proof.Machine
end

section
/-! PROOFS. The statements of 40_encode.md: the codes of absent, empty and too long inputs, the text ENCODE writes, and that both
decoders turn it back. -/

namespace Sys2Proof.Machine

/-! ## Ends without output (R111, R112, R114) -/

/-- The state a command ends in, by what its evaluation ends in. -/
theorem exec_of_evaluated {i : Instr} {s : State} {r : Completion} (h : s.evaluated i = r) :
    exec i s = .next (s.complete r) := h ▸ exec_eq_evaluated i s

/-- An evaluation without output ends the command without any (R177). -/
theorem exec_of_evaluated_empty {i : Instr} {s : State} {c : Code} (h : s.evaluated i = .finish c 0 []) :
    exec i s = .next (s.endedEmpty c) :=
  (exec_of_evaluated h).trans (congrArg Host.Outcome.next (s.finish_nil c))

/-- Settles O6: the first check answers. -/
theorem absentInputEndsWithItsCode : Obligations.AbsentInputEndsWithItsCode := fun s _ =>
  ⟨exec_of_evaluated_empty (s.checked_absent _ _), exec_of_evaluated_empty (s.checked_absent _ _),
    exec_of_evaluated_empty (s.checked_absent _ _)⟩

/-- Settles O7: an input of length 0 fits every buffer, so the last of the common checks answers. -/
theorem emptyInputSucceedsEmpty : Obligations.EmptyInputSucceedsEmpty := by
  intro s w hempty
  have hlen : s.inLen.toNat = 0 := by rw [hempty]; rfl
  exact ⟨exec_of_evaluated_empty (State.checked_empty hlen _ _), exec_of_evaluated_empty (State.checked_empty hlen _ _),
    exec_of_evaluated_empty (State.checked_empty hlen _ _)⟩

/-! ## The length of the text (R113, R114, R116) -/

/-- Settles O17. -/
theorem encodeLengthIsComputedRight : Obligations.EncodeLengthIsComputedRight := fun w x _ =>
  ⟨encodeText_length w x, encodeSeps_eq w x.length⟩

/-- `len` of R113, in terms of the groups alone. -/
theorem encodeLen_eq (w : Bool) (n : Nat) :
    encodeLen w n = 4 * encodeGroups n + 2 * (if w then (encodeGroups n - 1) / 19 else 0) := by
  rw [encodeLen, encodeSeps_eq, encodeChars]

theorem fitted_of_lt {outCap len : Nat} (h : outCap < len) (bs : List Byte) :
    fitted outCap len bs = .finish .noMemory 0 [] := if_pos h

theorem fitted_of_le {outCap len : Nat} (h : len ≤ outCap) (bs : List Byte) :
    fitted outCap len bs = .finish .ok len bs := if_neg (Nat.not_lt.mpr h)

/-- ENCODE of a present, non-empty input that fits IN_CAP (R110). -/
theorem State.evaluated_encode {s : State} (w : Bool) (h1 : 1 ≤ s.inLen.toNat) (hin : s.inLen.toNat ≤ s.params.inCap) :
    s.evaluated (.encode w false) =
      fitted s.params.outCap (encodeLen w s.inLen.toNat) (encodeText w (s.inBytes s.inLen.toNat)) := by
  rw [State.evaluated, State.checked_run h1 hin, encodeOp, State.inBytes_length]

/-- Where the text fits OUT_CAP, ENCODE ends with OK and the text (R110, R113). -/
theorem exec_encode_ok {s : State} {w : Bool} (h1 : 1 ≤ s.inLen.toNat) (hin : s.inLen.toNat ≤ s.params.inCap)
    (hout : encodeLen w s.inLen.toNat ≤ s.params.outCap) :
    exec (.encode w false) s =
      .next (s.finish .ok (encodeLen w s.inLen.toNat) (encodeText w (s.inBytes s.inLen.toNat))) :=
  exec_of_evaluated ((State.evaluated_encode w h1 hin).trans (fitted_of_le hout _))

/-- Where the text is longer than OUT_CAP, ENCODE ends without output (R114). -/
theorem exec_encode_noMemory {s : State} {w : Bool} (h1 : 1 ≤ s.inLen.toNat) (hin : s.inLen.toNat ≤ s.params.inCap)
    (hout : s.params.outCap < encodeLen w s.inLen.toNat) :
    exec (.encode w false) s = .next (s.endedEmpty .noMemory) :=
  exec_of_evaluated_empty ((State.evaluated_encode w h1 hin).trans (fitted_of_lt hout _))

/-- Settles O16: the last check compares the length of R113 with OUT_CAP. -/
theorem encodeTooLongGivesNoMemory : Obligations.EncodeTooLongGivesNoMemory := by
  intro s w groups len h1 hin hgroups hlen
  have hlen : len = encodeLen w s.inLen.toNat := by rw [hlen, hgroups, encodeLen_eq, encodeGroups]
  subst hlen
  exact ⟨exec_encode_noMemory h1 hin, fun hout => ⟨_, exec_encode_ok h1 hin hout, rfl⟩⟩

/-! ## The text, group by group (R115 to R118) -/

/-- The value of the first group of an input, missing bytes being 0x00 (R115). -/
def headValue (x : List Byte) : Group := x.getD 0 0 ++ x.getD 1 0 ++ x.getD 2 0

/-- The characters of the first group of an input (R117, R118). -/
def headGroup (x : List Byte) : List Byte := encodeGroup (x.take 3).length (x.getD 0 0) (x.getD 1 0) (x.getD 2 0)

/-- The text is the first group, the line break after it, and the text of the rest (R110). -/
theorem encodeFrom_group (w : Bool) (g : Nat) {x : List Byte} (hx : x ≠ []) :
    encodeFrom w g x = headGroup x ++ (lineBreak w g (x.drop 3) ++ encodeFrom w (g + 1) (x.drop 3)) := by
  match x with
  | [] => exact absurd rfl hx
  | [b0] => simp [encodeFrom, headGroup, lineBreak]
  | [b0, b1] => simp [encodeFrom, headGroup, lineBreak]
  | b0 :: b1 :: b2 :: rest => simp [encodeFrom, headGroup]

/-- What holds of the empty input, and of every other if it holds of what follows its first group, holds of every input. -/
theorem groups_induction {P : Nat → List Byte → Prop} (nil : ∀ g, P g [])
    (group : ∀ g x, x ≠ [] → P (g + 1) (x.drop 3) → P g x) (g : Nat) (x : List Byte) : P g x := by
  induction g, x using encodeFrom.induct with
  | case1 g => exact nil g
  | case2 g b0 => exact group g [b0] (by simp) (nil (g + 1))
  | case3 g b0 b1 => exact group g [b0, b1] (by simp) (nil (g + 1))
  | case4 g b0 b1 b2 rest ih => exact group g (b0 :: b1 :: b2 :: rest) (by simp) ih

theorem headGroup_eq (x : List Byte) :
    headGroup x = [alpha ((headValue x).extractLsb' 18 6), alpha ((headValue x).extractLsb' 12 6),
      if 1 < x.length then alpha ((headValue x).extractLsb' 6 6) else padByte,
      if 2 < x.length then alpha ((headValue x).extractLsb' 0 6) else padByte] := by
  have h2 : 2 ≤ (x.take 3).length ↔ 1 < x.length := by rw [List.length_take]; omega
  have h3 : (x.take 3).length = 3 ↔ 2 < x.length := by rw [List.length_take]; omega
  simp only [headGroup, encodeGroup, headValue, h2, h3]

@[simp] theorem headGroup_length (x : List Byte) : (headGroup x).length = 4 := rfl

@[simp] theorem lineBreak_nil (w : Bool) (g : Nat) : lineBreak w g [] = [] := by simp [lineBreak]

@[simp] theorem lineBreak_false (g : Nat) (rest : List Byte) : lineBreak false g rest = [] := rfl

/-- The group completes a line, and another follows (R116). -/
theorem lineBreak_of_line {g : Nat} {rest : List Byte} (hline : (g + 1) % 19 = 0) (hrest : rest ≠ []) :
    lineBreak true g rest = [crByte, lfByte] := by
  simp [lineBreak, hline, hrest]

/-- The group does not complete a line. -/
theorem lineBreak_of_not_line {w : Bool} {g : Nat} {rest : List Byte} (hline : (g + 1) % 19 ≠ 0) :
    lineBreak w g rest = [] := by
  simp [lineBreak, hline]

theorem groupOffset_true (g : Nat) : groupOffset true g = 4 * g + 2 * (g / 19) := rfl

theorem groupOffset_false (g : Nat) : groupOffset false g = 4 * g := rfl

/-- Group `g + 1` begins where group `g` and the line break after it end (R116). -/
theorem groupOffset_succ (w : Bool) (g : Nat) {rest : List Byte} (h : rest ≠ []) :
    groupOffset w (g + 1) = groupOffset w g + (4 + (lineBreak w g rest).length) := by
  rw [lineBreak_length w g h]
  cases w with
  | false => rfl
  | true =>
    rw [groupOffset_true, groupOffset_true, if_pos rfl]
    omega

/-- From the offset of a group on, the text is that of the input from this group on. -/
theorem encodeText_drop (w : Bool) (x : List Byte) (g : Nat) (h : 3 * g < x.length) :
    (encodeText w x).drop (groupOffset w g) = encodeFrom w g (x.drop (3 * g)) := by
  induction g with
  | zero => cases w <;> rfl
  | succ g ih =>
    have hnow : x.drop (3 * g) ≠ [] := by simp; omega
    have hnext : (x.drop (3 * g)).drop 3 = x.drop (3 * (g + 1)) := List.drop_drop ..
    have hrest : x.drop (3 * (g + 1)) ≠ [] := by simp; omega
    rw [groupOffset_succ w g hrest, ← List.drop_drop, ih (by omega), encodeFrom_group w g hnow, hnext, ← List.append_assoc]
    exact List.drop_left' (by simp)

/-- A byte of the text, counted from the offset of a group. -/
theorem encodeText_getD {w : Bool} {x : List Byte} {g : Nat} (h : 3 * g < x.length) (i : Nat) :
    (encodeText w x).getD (groupOffset w g + i) 0 =
      (headGroup (x.drop (3 * g)) ++ (lineBreak w g (x.drop (3 * (g + 1))) ++
        encodeFrom w (g + 1) (x.drop (3 * (g + 1))))).getD i 0 := by
  have hnow : x.drop (3 * g) ≠ [] := by simp; omega
  have hnext : (x.drop (3 * g)).drop 3 = x.drop (3 * (g + 1)) := List.drop_drop ..
  rw [List.getD_eq_getElem?_getD, ← List.getElem?_drop, encodeText_drop w x g h, encodeFrom_group w g hnow, hnext,
    List.getD_eq_getElem?_getD]

/-- The four characters of a group stand at its offset. -/
theorem encodeText_getD_group {w : Bool} {x : List Byte} {g i : Nat} (h : 3 * g < x.length) (hi : i < 4) :
    (encodeText w x).getD (groupOffset w g + i) 0 = (headGroup (x.drop (3 * g))).getD i 0 := by
  rw [encodeText_getD h, List.getD_append _ _ _ _ (by simpa using hi)]

/-- CR LF `j` stands right before group `19 * j` (R116). -/
theorem encodeText_getD_break {x : List Byte} {j : Nat} (hj : 1 ≤ j) (h : 57 * j < x.length) :
    (encodeText true x).getD (78 * j - 2) 0 = crByte ∧ (encodeText true x).getD (78 * j - 1) 0 = lfByte := by
  obtain ⟨k, rfl⟩ : ∃ k, j = k + 1 := ⟨j - 1, by omega⟩
  have hoff : groupOffset true (19 * k + 18) = 78 * k + 72 := by
    rw [groupOffset_true]
    omega
  have hbreak : lineBreak true (19 * k + 18) (x.drop (3 * (19 * k + 18 + 1))) = [crByte, lfByte] :=
    lineBreak_of_line (by omega) (by simp; omega)
  have hbyte := fun i => encodeText_getD (w := true) (x := x) (g := 19 * k + 18) (by omega) i
  rw [hbreak, hoff] at hbyte
  rw [show 78 * (k + 1) - 2 = 78 * k + 72 + 4 by omega, show 78 * (k + 1) - 1 = 78 * k + 72 + 5 by omega]
  exact ⟨hbyte 4, hbyte 5⟩

/-- An input byte, or 0x00 beyond the input (R115). -/
theorem State.inBytes_getD (s : State) (n j : Nat) : (s.inBytes n).getD j 0 = if j < n then s.inByte j else 0 := by
  by_cases h : j < n <;> simp [State.inBytes, h]

/-- Group `g` of an input is the first of the input from there on (R115). -/
theorem headValue_drop_inBytes (s : State) {n g : Nat} (h : 3 * g < n) :
    headValue ((s.inBytes n).drop (3 * g)) = s.inGroup n g := by
  have hbyte : ∀ i, ((s.inBytes n).drop (3 * g)).getD i 0 = if 3 * g + i < n then s.inByte (3 * g + i) else 0 := fun i => by
    rw [← s.inBytes_getD, List.getD_eq_getElem?_getD, List.getElem?_drop, ← List.getD_eq_getElem?_getD]
  simp only [headValue, State.inGroup, hbyte, Nat.add_zero, if_pos h]

/-- The characters of group `g` of an input (R115, R117, R118). -/
theorem headGroup_drop_inBytes (s : State) {n g : Nat} (h : 3 * g < n) :
    headGroup ((s.inBytes n).drop (3 * g)) =
      [alpha ((s.inGroup n g).extractLsb' 18 6), alpha ((s.inGroup n g).extractLsb' 12 6),
        if 3 * g + 1 < n then alpha ((s.inGroup n g).extractLsb' 6 6) else padByte,
        if 3 * g + 2 < n then alpha ((s.inGroup n g).extractLsb' 0 6) else padByte] := by
  have hmore : ∀ i, i < n - 3 * g ↔ 3 * g + i < n := by omega
  simp only [headGroup_eq, headValue_drop_inBytes s h, List.length_drop, State.inBytes_length, hmore]

/-- OUT_BUF after a completion with OK that writes all its bytes: these, and behind them what was there before (R68, R176). -/
theorem State.finish_ok_outByte (s : State) {bs : List Byte} {n : Nat} (hn : n = bs.length) (a : Nat) :
    (s.finish .ok n bs).outByte a = if a < n then bs.getD a 0 else s.outByte a := by
  rw [State.finish_outByte, List.take_of_length_le hn.ge, ← hn]
  simp

/-- Every group lies within the length of R113. -/
theorem groupOffset_lt_encodeLen (w : Bool) {n g : Nat} (h : 3 * g < n) : groupOffset w g + 3 < encodeLen w n := by
  rw [encodeLen_eq, encodeGroups]
  cases w with
  | false =>
    rw [groupOffset_false, if_neg Bool.false_ne_true]
    omega
  | true =>
    rw [groupOffset_true, if_pos rfl]
    omega

/-- Settles O15: what OUT_BUF reads is the text, and the text is known at the offset of each group and of each line break. -/
theorem encodeWritesTheText : Obligations.EncodeWritesTheText := by
  intro s w n groups len hwf hn h1 hin hgroups hlen hout
  obtain ⟨-, -, -, hcap⟩ := (Params.wf_iff s.params).mp hwf
  have hlen : len = encodeLen w n := by rw [hlen, hgroups, encodeLen_eq, encodeGroups]
  subst hn hlen
  have hread := s.finish_ok_outByte (bs := encodeText w (s.inBytes s.inLen.toNat)) (n := encodeLen w s.inLen.toNat)
    (by rw [encodeText_length, State.inBytes_length])
  refine ⟨_, exec_encode_ok h1 hin hout, rfl, Nat.mod_eq_of_lt (by omega), rfl, rfl, fun g hg => ?_, fun j hw hj hg => ?_,
    fun a ha => (hread a).trans (if_neg (by omega))⟩
  · have hg : 3 * g < s.inLen.toNat := by omega
    have hinside := groupOffset_lt_encodeLen w hg
    have hbyte : ∀ i, i < 4 → (s.finish .ok _ _).outByte (groupOffset w g + i) = _ := fun i hi =>
      ((hread _).trans (if_pos (by omega))).trans (encodeText_getD_group (by simpa using hg) hi)
    rw [headGroup_drop_inBytes s hg] at hbyte
    exact ⟨hbyte 0 (by decide), hbyte 1 (by decide), hbyte 2 (by decide), hbyte 3 (by decide)⟩
  · subst hw
    have hinside := groupOffset_lt_encodeLen true (n := s.inLen.toNat) (g := 19 * j) (by omega)
    have hoff : groupOffset true (19 * j) = 78 * j := by
      rw [groupOffset_true]
      omega
    obtain ⟨hcr, hlf⟩ := encodeText_getD_break (x := s.inBytes s.inLen.toNat) hj (by rw [State.inBytes_length]; omega)
    exact ⟨((hread _).trans (if_pos (by omega))).trans hcr, ((hread _).trans (if_pos (by omega))).trans hlf⟩

/-! ## Line breaks (R116, R119, R152) -/

/-- Four bytes that begin in a column up to 72 are wrapped as a whole: only behind them there may be a line break. -/
theorem wrapFrom_append_four {k : Nat} (hk : k ≤ 72) {y : List Byte} (hy : y.length = 4) (cs : List Byte) :
    wrapFrom k (y ++ cs) =
      y ++ if k = 72 ∧ cs ≠ [] then crByte :: lfByte :: wrapFrom 0 cs else wrapFrom (k + 4) cs := by
  obtain ⟨c0, c1, c2, c3, rfl⟩ := List.length_eq_four.mp hy
  have h0 : k ≠ 75 := by omega
  have h1 : k + 1 ≠ 75 := by omega
  have h2 : k + 1 + 1 ≠ 75 := by omega
  have h3 : k + 1 + 1 + 1 = 75 ↔ k = 72 := by omega
  simp only [List.cons_append, List.nil_append, wrapFrom, h0, h1, h2, h3, decide_false, Bool.false_and,
    Bool.false_eq_true, if_false]
  cases cs <;> by_cases h : k = 72 <;> simp [h, wrapFrom]

/-- A text that ends within its line has no line break. -/
theorem wrapFrom_eq_self {k : Nat} {y : List Byte} (h : k + y.length ≤ 76) : wrapFrom k y = y := by
  induction y generalizing k with
  | nil => rfl
  | cons b bs ih =>
    rw [List.length_cons] at h
    have hlast : ¬ (k = 75 && !bs.isEmpty) = true := by
      intro hbreak
      obtain ⟨hcol, hmore⟩ : k = 75 ∧ bs ≠ [] := by simpa using hbreak
      have hlen := List.length_pos_of_ne_nil hmore
      omega
    rw [wrapFrom, if_neg hlast, ih (by omega)]

theorem encodeFrom_ne_nil {w : Bool} {g : Nat} {x : List Byte} (hx : x ≠ []) : encodeFrom w g x ≠ [] := by
  rw [encodeFrom_group w g hx, headGroup_eq]
  exact List.cons_ne_nil _ _

/-- With W = 1 the text from group `g` on is the one with W = 0, wrapped at 76 from the column of group `g` on (R116). -/
theorem encodeFrom_true (g : Nat) (x : List Byte) :
    encodeFrom true g x = wrapFrom (4 * (g % 19)) (encodeFrom false g x) := by
  induction g, x using groups_induction with
  | nil g => simp [encodeFrom, wrapFrom]
  | group g x hx ih =>
    rw [encodeFrom_group true g hx, encodeFrom_group false g hx, lineBreak_false, List.nil_append, ih,
      wrapFrom_append_four (by omega) (headGroup_length x)]
    refine congrArg (headGroup x ++ ·) ?_
    rcases eq_or_ne (x.drop 3) [] with hrest | hrest
    · rw [hrest]
      simp [encodeFrom, wrapFrom]
    · by_cases hline : (g + 1) % 19 = 0
      · have hcol : 4 * (g % 19) = 72 := by omega
        rw [lineBreak_of_line hline hrest, hline, if_pos ⟨hcol, encodeFrom_ne_nil hrest⟩]
        rfl
      · have hcol : 4 * (g % 19) ≠ 72 := by omega
        have hnext : 4 * ((g + 1) % 19) = 4 * (g % 19) + 4 := by omega
        rw [lineBreak_of_not_line hline, hnext, if_neg (fun h => hcol h.1)]
        rfl

/-- With W = 1 the text is the one with W = 0, wrapped at 76 (R116, R152). -/
theorem encodeText_true (x : List Byte) : encodeText true x = wrap76 (encodeText false x) := encodeFrom_true 0 x

/-- Up to 57 bytes give one line at most (R119). -/
theorem encodeText_true_of_short {x : List Byte} (h : x.length ≤ 57) : encodeText true x = encodeText false x := by
  rw [encodeText_true]
  refine wrapFrom_eq_self ?_
  rw [encodeText_length, encodeLen_eq, encodeGroups, if_neg Bool.false_ne_true]
  omega

/-- Settles O18: up to 57 bytes neither the text nor its length depends on W. -/
theorem wrapHasNoEffectOnShortInput : Obligations.WrapHasNoEffectOnShortInput := by
  intro s a hshort
  have hop : ∀ outCap, encodeOp true outCap (s.inBytes s.inLen.toNat) = encodeOp false outCap (s.inBytes s.inLen.toNat) := by
    intro outCap
    have htext := encodeText_true_of_short (x := s.inBytes s.inLen.toNat) (by simpa using hshort)
    rw [encodeOp, encodeOp, ← encodeText_length, ← encodeText_length, htext]
  simp only [exec, execEncode, State.checked, hop]

/-! ## The bytes of the text (R89, R119) -/

@[simp] theorem isSymbol_alpha (i : Sextet) : isSymbol (alpha i) = true := (isSymbol_iff _).mpr ⟨i, rfl⟩

/-- How many bytes are missing from the last group, which is the number of `=` at the end (R118). -/
def encodePad (n : Nat) : Nat := 3 * encodeGroups n - n

/-- Only the last group can lack bytes. -/
theorem encodePad_drop {n : Nat} (h : 3 < n) : encodePad (n - 3) = encodePad n := by
  unfold encodePad encodeGroups
  omega

/-- The last group is one symbol or more and then the padding (R117, R118). -/
theorem headGroup_last {x : List Byte} (hx : x ≠ []) (hlast : x.drop 3 = []) :
    ∃ z c, headGroup x = z ++ c :: List.replicate (encodePad x.length) padByte ∧ isSymbol c = true ∧
      ∀ b ∈ z, isSymbol b = true := by
  refine ⟨(headGroup x).take x.length, (headGroup x).getD x.length 0, ?_⟩
  match x with
  | [] => exact absurd rfl hx
  | [b0] => simp [headGroup_eq, encodePad, encodeGroups]
  | [b0, b1] => simp [headGroup_eq, encodePad, encodeGroups]
  | [b0, b1, b2] => simp [headGroup_eq, encodePad, encodeGroups]

/-- A group that more input follows is all symbols (R117). -/
theorem headGroup_isSymbol {x : List Byte} (h : 3 ≤ x.length) : ∀ b ∈ headGroup x, isSymbol b = true := by
  rw [headGroup_eq, if_pos (by omega), if_pos (by omega)]
  simp

/-- A line break is CR LF, and only with W = 1 (R116). -/
theorem mem_lineBreak {w : Bool} {g : Nat} {rest : List Byte} {b : Byte} (h : b ∈ lineBreak w g rest) :
    w = true ∧ (b = crByte ∨ b = lfByte) := by
  unfold lineBreak at h
  split at h
  · simp_all
  · cases h

/-- The text is symbols and line breaks, then a symbol, then the padding (R117, R118, R119). -/
theorem encodeFrom_ends (w : Bool) (g : Nat) {x : List Byte} (hx : x ≠ []) :
    ∃ z c, encodeFrom w g x = z ++ c :: List.replicate (encodePad x.length) padByte ∧ isSymbol c = true ∧
      ∀ b ∈ z, isSymbol b = true ∨ (w = true ∧ (b = crByte ∨ b = lfByte)) := by
  induction g, x using groups_induction with
  | nil g => exact absurd rfl hx
  | group g x hx ih =>
    rw [encodeFrom_group w g hx]
    rcases eq_or_ne (x.drop 3) [] with hlast | hmore
    · obtain ⟨z, c, hhead, hc, hz⟩ := headGroup_last hx hlast
      refine ⟨z, c, ?_, hc, fun b hb => .inl (hz b hb)⟩
      rw [hlast, lineBreak_nil, hhead]
      simp [encodeFrom]
    · obtain ⟨z, c, hrest, hc, hz⟩ := ih hmore
      have hlen : 3 < x.length := by simpa using hmore
      refine ⟨headGroup x ++ (lineBreak w g (x.drop 3) ++ z), c, ?_, hc, fun b hb => ?_⟩
      · rw [hrest, List.length_drop, encodePad_drop hlen]
        simp
      · rcases List.mem_append.mp hb with hb | hb
        · exact .inl (headGroup_isSymbol hlen.le b hb)
        · rcases List.mem_append.mp hb with hb | hb
          · exact .inr (mem_lineBreak hb)
          · exact hz b hb

theorem encodePad_le {n : Nat} : encodePad n ≤ 2 := by
  unfold encodePad encodeGroups
  omega

theorem ne_padByte_of_isSymbol {b : Byte} (h : isSymbol b = true) : b ≠ padByte := by
  rintro rfl
  rw [isSymbol_padByte] at h
  cases h

/-- Settles O19, by the form of the text. -/
theorem encodeOutputAlphabet : Obligations.EncodeOutputAlphabet := by
  intro w x
  rcases eq_or_ne x [] with rfl | hx
  · simp [encodeText, encodeFrom]
  · obtain ⟨z, c, htext, hc, hz⟩ := encodeFrom_ends w 0 hx
    have hpad : encodePad x.length ≤ 2 := encodePad_le
    change encodeText w x = _ at htext
    rw [htext]
    refine ⟨fun b hb => ?_, fun j hj => ?_⟩
    · rcases List.mem_append.mp hb with hb | hb
      · exact (hz b hb).imp_right .inr
      · rcases List.mem_cons.mp hb with rfl | hb
        · exact .inl hc
        · exact .inr (.inl (List.eq_of_mem_replicate hb))
    · by_contra hlate
      have hin : j < (z ++ [c]).length := by
        simp only [List.length_append, List.length_cons, List.length_replicate] at hlate ⊢
        omega
      have hmem : padByte ∈ z ++ [c] := by
        rw [List.append_cons, List.getD_append _ _ _ _ hin, List.getD_eq_getElem _ _ hin] at hj
        exact hj ▸ List.getElem_mem hin
      rcases List.mem_append.mp hmem with hmem | hmem
      · rcases hz _ hmem with h | ⟨-, h | h⟩
        · exact ne_padByte_of_isSymbol h rfl
        · exact absurd h (by decide)
        · exact absurd h (by decide)
      · exact ne_padByte_of_isSymbol hc (List.mem_singleton.mp hmem).symm

/-! ## Groups back to bytes (R138) -/

@[simp] theorem val_alpha (i : Sextet) : val (alpha i) = i := by simp [val]

@[simp] theorem val_padByte : val padByte = 0 := by decide

/-- The three bytes of a group come apart again (R115, R138). -/
theorem groupBytes_append (b0 b1 b2 : Byte) : groupBytes (b0 ++ b1 ++ b2) = [b0, b1, b2] := by
  have h0 : (b0 ++ b1 ++ b2).extractLsb' 16 8 = b0 := by
    rw [BitVec.extractLsb'_append_eq_of_le (by decide), BitVec.extractLsb'_append_eq_of_le (by decide)]
    exact BitVec.extractLsb'_eq_self
  have h1 : (b0 ++ b1 ++ b2).extractLsb' 8 8 = b1 := by
    rw [BitVec.extractLsb'_append_eq_of_le (by decide), BitVec.extractLsb'_append_eq_of_add_le (by decide)]
    exact BitVec.extractLsb'_eq_self
  have h2 : (b0 ++ b1 ++ b2).extractLsb' 0 8 = b2 := by
    rw [BitVec.extractLsb'_append_eq_of_add_le (by decide)]
    exact BitVec.extractLsb'_eq_self
  rw [groupBytes, h0, h1, h2]

/-- Where the second byte is missing, so are the bits of the third symbol (R115). -/
theorem headValue_slice_third {x : List Byte} (h : ¬ 1 < x.length) : (headValue x).extractLsb' 6 6 = 0 := by
  have hzeros : (x.getD 0 0 ++ (0 : Byte) ++ (0 : Byte) : Group) = x.getD 0 0 ++ (0 : BitVec 16) := BitVec.append_assoc
  rw [headValue, List.getD_eq_default x 0 (n := 1) (by omega), List.getD_eq_default x 0 (n := 2) (by omega), hzeros,
    BitVec.extractLsb'_append_eq_of_add_le (by decide)]
  rfl

theorem headValue_slice_fourth {x : List Byte} (h : ¬ 2 < x.length) : (headValue x).extractLsb' 0 6 = 0 := by
  rw [headValue, List.getD_eq_default x 0 (n := 2) (by omega), BitVec.extractLsb'_append_eq_of_add_le (by decide)]
  rfl

/-- The group of four characters is the group that was encoded: the sextet of `=` is 0, and so are the missing bytes. -/
theorem unpackGroups_headGroup (x cs : List Byte) :
    unpackGroups (headGroup x ++ cs) = x.getD 0 0 :: x.getD 1 0 :: x.getD 2 0 :: unpackGroups cs := by
  have h2 : val (if 1 < x.length then alpha ((headValue x).extractLsb' 6 6) else padByte) =
      (headValue x).extractLsb' 6 6 := by
    split
    · exact val_alpha _
    · next h => rw [headValue_slice_third h, val_padByte]
  have h3 : val (if 2 < x.length then alpha ((headValue x).extractLsb' 0 6) else padByte) =
      (headValue x).extractLsb' 0 6 := by
    split
    · exact val_alpha _
    · next h => rw [headValue_slice_fourth h, val_padByte]
  have hvalue : (headValue x).extractLsb' 18 6 ++ (headValue x).extractLsb' 12 6 ++ (headValue x).extractLsb' 6 6 ++
      (headValue x).extractLsb' 0 6 = headValue x :=
    (slices_append (headValue x) 6 6 6 6).trans BitVec.extractLsb'_eq_self
  rw [headGroup_eq]
  simp only [List.cons_append, List.nil_append, unpackGroups, packSextets, val_alpha, h2, h3]
  rw [hvalue, headValue, groupBytes_append]
  rfl

/-- Decoding the text without line breaks gives the input, and behind it the missing bytes of the last group. -/
theorem unpackGroups_encodeFrom (g : Nat) (x : List Byte) :
    (unpackGroups (encodeFrom false g x)).take x.length = x := by
  induction g, x using groups_induction with
  | nil g => rfl
  | group g x hx ih =>
    rw [encodeFrom_group false g hx, lineBreak_false, List.nil_append, unpackGroups_headGroup]
    match x with
    | [] => exact absurd rfl hx
    | [b0] => rfl
    | [b0, b1] => rfl
    | b0 :: b1 :: b2 :: rest => simpa using ih

/-! ## DECODE of the text (R131 to R139) -/

theorem isSep_of_isSymbol {b : Byte} (h : isSymbol b = true) : isSep b = false := by simp [isSep, h]

theorem isSep_padByte : isSep padByte = false := by decide

/-- Behind its last symbol a text has only the padding that is counted (R135). -/
theorem padCount_append_replicate (z : List Byte) {c : Byte} (hc : isSymbol c = true) (p : Nat) :
    padCount (z ++ c :: List.replicate p padByte) = p := by
  have hscan : ∀ bs, padScan (List.replicate p padByte ++ c :: bs) = p := by
    intro bs
    induction p with
    | zero => simp [padScan, isSep_of_isSymbol hc, ne_padByte_of_isSymbol hc]
    | succ p ih => simp [List.replicate_succ, padScan, isSep_padByte, ih]
  simpa [padCount] using hscan z.reverse

/-- Wrapping a text of meaningful characters adds no meaningful character (R131, R152). -/
theorem meaningful_wrapFrom (k : Nat) {y : List Byte} (hy : ∀ b ∈ y, isMean b = true) : meaningful (wrapFrom k y) = y := by
  have hcr : isMean crByte = false := by decide
  have hlf : isMean lfByte = false := by decide
  unfold meaningful
  induction y generalizing k with
  | nil => rfl
  | cons b bs ih =>
    rw [List.forall_mem_cons] at hy
    rw [wrapFrom]
    split
    · simp [hy.1, hcr, hlf, ih 0 hy.2]
    · simp [hy.1, ih (k + 1) hy.2]

/-- Every byte of the text without line breaks is meaningful (R91). -/
theorem isMean_of_mem_encodeText {x : List Byte} {b : Byte} (hb : b ∈ encodeText false x) : isMean b = true := by
  rcases (encodeOutputAlphabet false x).1 b hb with h | rfl | ⟨h, -⟩
  · simp [isMean, isSep_of_isSymbol h]
  · decide
  · cases h

/-- The meaningful characters of the text are its characters but for the line breaks (R131). -/
theorem meaningful_encodeText (w : Bool) (x : List Byte) : meaningful (encodeText w x) = encodeText false x := by
  cases w with
  | false => exact List.filter_eq_self.mpr fun b => isMean_of_mem_encodeText
  | true =>
    rw [encodeText_true]
    exact meaningful_wrapFrom 0 fun b => isMean_of_mem_encodeText

theorem meanCount_encodeText (w : Bool) (x : List Byte) : meanCount (encodeText w x) = 4 * encodeGroups x.length := by
  rw [← meaningful_length, meaningful_encodeText, encodeText_length, encodeLen_eq, if_neg Bool.false_ne_true, Nat.mul_zero,
    Nat.add_zero]

theorem padCount_encodeText (w : Bool) {x : List Byte} (hx : x ≠ []) : padCount (encodeText w x) = encodePad x.length := by
  obtain ⟨z, c, htext, hc, -⟩ := encodeFrom_ends w 0 hx
  rw [encodeText, htext, padCount_append_replicate z hc]

/-- The computed output length is that of the input (R136). -/
theorem decodeLen_encodeText (w : Bool) {x : List Byte} (hx : x ≠ []) : decodeLen (encodeText w x) = x.length := by
  rw [decodeLen, meanCount_encodeText, padCount_encodeText w hx, encodePad, encodeGroups]
  omega

theorem decodeText_encodeText (w : Bool) {x : List Byte} (hx : x ≠ []) : decodeText (encodeText w x) = x := by
  rw [decodeText, meaningful_encodeText, decodeLen_encodeText w hx]
  exact unpackGroups_encodeFrom 0 x

/-- DECODE of the text passes both structural checks and gives the input back (R120). -/
theorem decodeOp_encodeText (w : Bool) {x : List Byte} (hx : x ≠ []) (outCap : Nat) :
    decodeOp outCap (encodeText w x) = fitted outCap x.length x := by
  have hgroups : ¬ meanCount (encodeText w x) % 4 ≠ 0 := by
    rw [meanCount_encodeText]
    omega
  have hpad : ¬ 2 < padCount (encodeText w x) := by
    rw [padCount_encodeText w hx]
    exact Nat.not_lt.mpr encodePad_le
  rw [decodeOp, if_neg hgroups, if_neg hpad, decodeLen_encodeText w hx, decodeText_encodeText w hx]

/-! ## The text meets FastPre (R152) -/

/-- A text that begins and ends with a meaningful character is its own content (R154). -/
theorem content_eq_self {x : List Byte} (hfirst : x.dropWhile isSep = x) (hlast : x.reverse.dropWhile isSep = x.reverse) :
    content x = x := by
  rw [content, hfirst, hlast, List.reverse_reverse]

/-- Padding and symbols are no separators, so nothing is dropped from such a beginning. -/
theorem dropWhile_isSep_padding {c : Byte} (hc : isSymbol c = true) (p : Nat) (bs : List Byte) :
    (List.replicate p padByte ++ c :: bs).dropWhile isSep = List.replicate p padByte ++ c :: bs := by
  cases p with
  | zero => simp [isSep_of_isSymbol hc]
  | succ p => simp [List.replicate_succ, isSep_padByte]

theorem content_encodeText (w : Bool) {x : List Byte} (hx : x ≠ []) : content (encodeText w x) = encodeText w x := by
  refine content_eq_self ?_ ?_
  · rw [encodeText, encodeFrom_group w 0 hx, headGroup_eq]
    exact List.dropWhile_cons_of_neg (by simp [isSep_of_isSymbol])
  · obtain ⟨z, c, htext, hc, -⟩ := encodeFrom_ends w 0 hx
    rw [encodeText, htext]
    simpa using dropWhile_isSep_padding hc (encodePad x.length) z.reverse

/-- Symbols and then at most two `=`, a multiple of four in all, are well padded (R152). -/
theorem wellPadded_append_replicate {z : List Byte} (hz : ∀ b ∈ z, isSymbol b = true) {p : Nat} (hp : p ≤ 2)
    (h4 : (z.length + p) % 4 = 0) : wellPadded (z ++ List.replicate p padByte) = true := by
  have hdrop : (z ++ List.replicate p padByte).dropWhile isSymbol = List.replicate p padByte := by
    rw [List.dropWhile_append_of_pos hz]
    cases p with
    | zero => rfl
    | succ p => simp [List.replicate_succ, isSymbol_padByte]
  simp [wellPadded, hdrop, hp, h4]

/-- The text without line breaks is symbols and then the padding (R117, R118). -/
theorem encodeText_false_padded {x : List Byte} (hx : x ≠ []) :
    ∃ z, encodeText false x = z ++ List.replicate (encodePad x.length) padByte ∧ (∀ b ∈ z, isSymbol b = true) ∧
      z.length + encodePad x.length = 4 * encodeGroups x.length := by
  obtain ⟨z, c, htext, hc, hz⟩ := encodeFrom_ends false 0 hx
  have htext : encodeText false x = (z ++ [c]) ++ List.replicate (encodePad x.length) padByte := by
    rw [encodeText, htext, List.append_cons]
  refine ⟨z ++ [c], htext, ?_, ?_⟩
  · simpa [hc, or_imp, forall_and] using hz
  · have hlen := encodeText_length false x
    rw [htext, List.length_append, List.length_replicate, encodeLen_eq, if_neg Bool.false_ne_true] at hlen
    omega

theorem fastPre_encodeText (w : Bool) {x : List Byte} (hx : x ≠ []) : fastPre (encodeText w x) = true := by
  obtain ⟨z, htext, hz, hlen⟩ := encodeText_false_padded hx
  have hpadded : wellPadded (encodeText false x) = true := by
    rw [htext]
    exact wellPadded_append_replicate hz encodePad_le (by omega)
  rw [fastPre, content_encodeText w hx, meaningful_encodeText, hpadded]
  cases w with
  | false => simp
  | true => simp [encodeText_true]

/-! ## The datapath of DECODE_FAST (R155 to R159) -/

/-- Up to two `=` at the end are counted (R155). -/
theorem fastPad_append_replicate (z : List Byte) {c : Byte} (hc : c ≠ padByte) {p : Nat} (hp : p ≤ 2) :
    fastPad (z ++ c :: List.replicate p padByte) = p := by
  match p with
  | 0 => rcases hz : z.reverse with _ | ⟨b, bs⟩ <;> simp [fastPad, hz, hc]
  | 1 => simp [fastPad, hc]
  | 2 => simp [fastPad, List.replicate_succ]

theorem fastPad_encodeText (w : Bool) {x : List Byte} (hx : x ≠ []) : fastPad (encodeText w x) = encodePad x.length := by
  obtain ⟨z, c, htext, hc, -⟩ := encodeFrom_ends w 0 hx
  rw [encodeText, htext, fastPad_append_replicate z (ne_padByte_of_isSymbol hc) encodePad_le]

/-- A content of meaningful characters is not taken for a wrapped one (R156). -/
theorem fastWrapped_of_isMean {c : List Byte} (h : ∀ b ∈ c, isMean b = true) : fastWrapped c = false := by
  by_contra hwrapped
  obtain ⟨hlong, hcr⟩ : 76 < c.length ∧ c.getD 76 0 = crByte := by simpa [fastWrapped] using hwrapped
  have hmean : isMean crByte = true := by
    rw [← hcr, List.getD_eq_getElem _ _ hlong]
    exact h _ (List.getElem_mem hlong)
  exact absurd hmean (by decide)

/-- The probe finds the number of separators (R113, R156). -/
theorem fastSep_encodeText (w : Bool) (x : List Byte) : fastSep (encodeText w x) = 2 * encodeSeps w x.length := by
  rw [fastSep]
  cases w with
  | false =>
    rw [fastWrapped_of_isMean fun b => isMean_of_mem_encodeText]
    rfl
  | true =>
    have hlen := encodeText_length true x
    rw [encodeLen_eq, encodeGroups, if_pos rfl] at hlen
    rw [encodeSeps_eq, encodeGroups, if_pos rfl]
    by_cases hshort : x.length ≤ 57
    · have hone : ¬ 76 < (encodeText true x).length := by omega
      have hwrapped : fastWrapped (encodeText true x) = false := by simp [fastWrapped, hone]
      rw [hwrapped, if_neg Bool.false_ne_true]
      omega
    · have hmore : 76 < (encodeText true x).length := by omega
      have hcr : (encodeText true x).getD 76 0 = crByte := (encodeText_getD_break (j := 1) le_rfl (by omega)).1
      have hwrapped : fastWrapped (encodeText true x) = true := by rw [fastWrapped, hcr, decide_eq_true hmore]; rfl
      rw [hwrapped, if_pos rfl]
      omega

/-- The computed output length is that of the input (R157). -/
theorem fastLen_encodeText (w : Bool) {x : List Byte} (hx : x ≠ []) : fastLen (encodeText w x) = x.length := by
  rw [fastLen, fastSep_encodeText, fastPad_encodeText w hx, encodeText_length, encodeLen, encodeChars, encodePad,
    Nat.add_sub_cancel, encodeGroups]
  omega

/-- A text of four bytes or more is its first four and the rest. -/
theorem exists_four {y : List Byte} (h : 4 ≤ y.length) : ∃ c0 c1 c2 c3 cs, y = c0 :: c1 :: c2 :: c3 :: cs := by
  by_contra hshort
  exact absurd (length_lt_four fun c0 c1 c2 c3 cs hy => hshort ⟨c0, c1, c2, c3, cs, hy⟩) (Nat.not_lt.mpr h)

/-- Without a stride the loop decodes the groups one after another (R158). -/
theorem fastGroups_false {k : Nat} (cc : Nat) {y : List Byte} (hk : 4 * k ≤ y.length) :
    fastGroups false k cc y = (unpackGroups (y.take (4 * k)), y.drop (4 * k)) := by
  induction k generalizing cc y with
  | zero => rfl
  | succ k ih =>
    obtain ⟨c0, c1, c2, c3, cs, rfl⟩ := exists_four (y := y) (by omega)
    simp only [List.length_cons] at hk
    simp [fastGroups, ih (cc + 1) (y := cs) (by omega), Nat.mul_succ, unpackGroups]

/-- With its stride the loop decodes a group of a wrapped text and steps over a line break behind it (R158). -/
theorem fastGroups_true_four (k : Nat) {cc : Nat} (hcc : cc < 19) (c0 c1 c2 c3 : Byte) (cs : List Byte) :
    fastGroups true (k + 1) cc (wrapFrom (4 * cc) (c0 :: c1 :: c2 :: c3 :: cs)) =
      (fastGroups true k ((cc + 1) % 19) (wrapFrom (4 * ((cc + 1) % 19)) cs)).map
        (groupBytes (packSextets c0 c1 c2 c3) ++ ·) id := by
  have hwrap := wrapFrom_append_four (k := 4 * cc) (by omega) (y := [c0, c1, c2, c3]) rfl cs
  simp only [List.cons_append, List.nil_append] at hwrap
  rw [hwrap]
  by_cases hline : cc = 18
  · subst hline
    rcases cs with _ | ⟨c, cs⟩
    · rfl
    · rw [if_pos ⟨rfl, List.cons_ne_nil c cs⟩]
      rfl
  · have hcol : (cc + 1) % 19 = cc + 1 := by omega
    rw [if_neg (by omega), hcol]
    simp [fastGroups, hline, Nat.mul_succ, Prod.map]

/-- With its stride the loop decodes a wrapped text as if it had no line breaks (R158). -/
theorem fastGroups_true {k cc : Nat} (hcc : cc < 19) {y : List Byte} (hk : 4 * k ≤ y.length) :
    fastGroups true k cc (wrapFrom (4 * cc) y) =
      (unpackGroups (y.take (4 * k)), wrapFrom (4 * ((cc + k) % 19)) (y.drop (4 * k))) := by
  induction k generalizing cc y with
  | zero => simp [fastGroups, unpackGroups, Nat.mod_eq_of_lt hcc]
  | succ k ih =>
    obtain ⟨c0, c1, c2, c3, cs, rfl⟩ := exists_four (y := y) (by omega)
    have hcs : 4 * k ≤ cs.length := by simpa [Nat.mul_succ] using hk
    have hcol : ((cc + 1) % 19 + k) % 19 = (cc + (k + 1)) % 19 := by omega
    rw [fastGroups_true_four k hcc, ih (Nat.mod_lt _ (by decide)) hcs, hcol]
    rfl

/-- The loop up to the last group, on a content with or without line breaks that the probe took for what it is (R156, R158). -/
theorem fastGroups_content {c y : List Byte} (hc : c = if 0 < fastSep c then wrap76 y else y) {k : Nat}
    (hk : 4 * k ≤ y.length) (hlast : y.length ≤ 4 * k + 4) :
    fastGroups (decide (0 < fastSep c)) k 0 c = (unpackGroups (y.take (4 * k)), y.drop (4 * k)) := by
  by_cases hsep : 0 < fastSep c
  · have hrest : wrapFrom (4 * ((0 + k) % 19)) (y.drop (4 * k)) = y.drop (4 * k) :=
      wrapFrom_eq_self (by rw [List.length_drop]; omega)
    rw [if_pos hsep] at hc
    rw [decide_eq_true hsep, ← hrest, ← fastGroups_true (by decide) hk]
    exact congrArg (fastGroups true k 0) hc
  · rw [if_neg hsep] at hc
    rw [decide_eq_false hsep, ← fastGroups_false 0 hk, ← hc]

/-- Whole groups decode on their own (R138). -/
theorem unpackGroups_append {a : List Byte} (ha : a.length % 4 = 0) (b : List Byte) :
    unpackGroups (a ++ b) = unpackGroups a ++ unpackGroups b := by
  induction a using unpackGroups.induct with
  | case1 c0 c1 c2 c3 cs ih =>
    have hcs : cs.length % 4 = 0 := by
      simp only [List.length_cons] at ha
      omega
    simp [unpackGroups, ih hcs]
  | case2 a hshort =>
    have hnil : a = [] := by
      have := length_lt_four hshort
      exact List.eq_nil_of_length_eq_zero (by omega)
    simp [hnil, unpackGroups]

/-- Four sextets side by side, as shifted parts of one value (R138, R159). -/
theorem shifted_sextets_eq_append (a b c : Sextet) :
    a.setWidth 24 <<< 18 ||| (b.setWidth 24 <<< 12 ||| c.setWidth 24 <<< 6) = a ++ b ++ c ++ (0 : Sextet) := by
  ext i hi
  simp
  grind

/-- The accumulator of three bytes is their group with its padding (R159). -/
theorem fastTailAcc_three (c0 c1 c2 : Byte) : fastTailAcc 18 [c0, c1, c2] = packSextets c0 c1 c2 padByte := by
  rw [packSextets, val_padByte, ← shifted_sextets_eq_append]
  simp [fastTailAcc]

/-- The accumulator of two bytes is their group with its padding (R159). -/
theorem fastTailAcc_two (c0 c1 : Byte) : fastTailAcc 18 [c0, c1] = packSextets c0 c1 padByte padByte := by
  rw [← fastTailAcc_three]
  simp [fastTailAcc]

/-- The tail gives the bytes of the group that it is with its padding (R159). -/
theorem groupBytes_fastTailAcc {t : List Byte} {p : Nat} (h1 : 1 ≤ p) (h2 : p ≤ 2) (ht : t.length + p = 4) :
    groupBytes (fastTailAcc 18 t) = unpackGroups (t ++ List.replicate p padByte) := by
  obtain rfl | rfl : p = 1 ∨ p = 2 := by omega
  · obtain ⟨c0, c1, c2, rfl⟩ := List.length_eq_three.mp (Nat.succ.inj ht)
    rw [fastTailAcc_three]
    rfl
  · obtain ⟨c0, c1, rfl⟩ := List.length_eq_two.mp (Nat.succ.inj (Nat.succ.inj ht))
    rw [fastTailAcc_two]
    rfl

/-- Without padding the datapath decodes whole groups only (R158). -/
theorem fastText_whole {c y : List Byte} {m : Nat} (hc : c = if 0 < fastSep c then wrap76 y else y)
    (hy : y.length = 4 * m) (hlen : fastLen c = 3 * m) : fastText c = unpackGroups y := by
  have hk : fastLen c / 3 = m := by omega
  have htail : fastLen c % 3 = 0 := by omega
  rw [fastText, hk, fastGroups_content hc (by omega) (by omega), htail, List.take_of_length_le hy.le, List.take_zero,
    List.append_nil]

/-- With padding the datapath decodes the groups before the last, and of the last one as many bytes as there are (R158, R159). -/
theorem fastText_tail {c a t : List Byte} {p k : Nat}
    (hc : c = if 0 < fastSep c then wrap76 (a ++ (t ++ List.replicate p padByte)) else a ++ (t ++ List.replicate p padByte))
    (ha : a.length = 4 * k) (h1 : 1 ≤ p) (h2 : p ≤ 2) (ht : t.length + p = 4) (hpad : fastPad c = p)
    (hlen : fastLen c = 3 * k + (3 - p)) :
    fastText c = (unpackGroups (a ++ (t ++ List.replicate p padByte))).take (fastLen c) := by
  have hk : fastLen c / 3 = k := by omega
  have htail : fastLen c % 3 = 3 - p := by omega
  have hloop : fastGroups (decide (0 < fastSep c)) k 0 c = (unpackGroups a, t ++ List.replicate p padByte) := by
    rw [fastGroups_content hc (by simp; omega) (by simp; omega), List.take_left' ha, List.drop_left' ha]
  have htaken : (t ++ List.replicate p padByte).take ((t ++ List.replicate p padByte).length - p) = t :=
    List.take_left' (by simp)
  have hbytes : fastLen c = (unpackGroups a).length + (3 - p) := by
    rw [hlen, unpackGroups_length, ha, Nat.mul_div_cancel_left k (by decide)]
  rw [unpackGroups_append (by omega), hbytes, List.take_length_add_append]
  simp only [fastText, hk, hloop, htail, hpad, htaken, groupBytes_fastTailAcc h1 h2 ht]

/-- The datapath of DECODE_FAST on a padded text, with or without line breaks: the bytes of its groups, as far as they are counted
(R158 to R160). -/
theorem fastText_content {c z : List Byte} {p m : Nat}
    (hc : c = if 0 < fastSep c then wrap76 (z ++ List.replicate p padByte) else z ++ List.replicate p padByte)
    (hp : p ≤ 2) (hz : z.length + p = 4 * m) (hpad : fastPad c = p) (hlen : fastLen c = 3 * m - p) :
    fastText c = (unpackGroups (z ++ List.replicate p padByte)).take (fastLen c) := by
  rcases Nat.eq_zero_or_pos p with rfl | h1
  · have hy : (z ++ List.replicate 0 padByte).length = 4 * m := by simpa using hz
    rw [fastText_whole hc hy hlen, List.take_of_length_le]
    rw [unpackGroups_length]
    omega
  · have hsplit : z ++ List.replicate p padByte =
        z.take (4 * (m - 1)) ++ (z.drop (4 * (m - 1)) ++ List.replicate p padByte) := by
      rw [← List.append_assoc, List.take_append_drop]
    rw [hsplit] at hc ⊢
    exact fastText_tail (k := m - 1) hc (by rw [List.length_take]; omega) h1 hp (by rw [List.length_drop]; omega) hpad
      (by omega)

/-- The probe takes the text for what it is: with line breaks where it has some (R156). -/
theorem encodeText_eq_by_fastSep (w : Bool) (x : List Byte) :
    encodeText w x =
      if 0 < fastSep (encodeText w x) then wrap76 (encodeText false x) else encodeText false x := by
  rw [fastSep_encodeText, encodeSeps_eq, encodeGroups]
  cases w with
  | false => rfl
  | true =>
    rw [if_pos rfl]
    split
    · exact encodeText_true x
    · exact encodeText_true_of_short (by omega)

theorem fastText_encodeText (w : Bool) {x : List Byte} (hx : x ≠ []) : fastText (encodeText w x) = x := by
  obtain ⟨z, htext, -, hlen⟩ := encodeText_false_padded hx
  have hc := encodeText_eq_by_fastSep w x
  have hfastLen := fastLen_encodeText w hx
  have hbytes : (unpackGroups (encodeText false x)).take x.length = x := unpackGroups_encodeFrom 0 x
  rw [htext] at hc hbytes
  rw [fastText_content hc encodePad_le hlen (fastPad_encodeText w hx), hfastLen, hbytes]
  rw [hfastLen, encodePad, encodeGroups]
  omega

/-- DECODE_FAST of the text takes its datapath and gives the input back (R120). -/
theorem decodeFastOp_encodeText (w : Bool) {x : List Byte} (hx : x ≠ []) (outCap : Nat) :
    decodeFastOp outCap (encodeText w x) = fitted outCap x.length x := by
  have hmean : ¬ (encodeText w x).all isSep = true := by
    intro hall
    have hnone : meaningful (encodeText w x) = [] := by simpa [meaningful, isMean] using hall
    rw [meaningful_encodeText] at hnone
    exact encodeFrom_ne_nil hx hnone
  rw [decodeFastOp, if_neg hmean, fastPre_encodeText w hx, content_encodeText w hx, fastLen_encodeText w hx,
    fastText_encodeText w hx]
  rfl

/-! ## Round trip (R120) -/

/-- The output of a completion with OK that writes all its bytes, if it fits (R176). -/
theorem State.finish_ok_output (s : State) {bs : List Byte} {n : Nat} (hn : n = bs.length) (hcap : n ≤ 65536) :
    (s.finish .ok n bs).outLen.toNat = n ∧ (s.finish .ok n bs).outBytes n = bs := by
  refine ⟨Nat.mod_eq_of_lt (by omega), ?_⟩
  subst hn
  refine List.ext_getElem (by simp) fun j hj hj' => ?_
  simp [State.outBytes, s.finish_ok_outByte rfl, hj']

/-- A command whose evaluation comes down to the last check on bytes that fit ends with these bytes. -/
theorem exec_of_evaluated_fitted {i : Instr} {s : State} {x : List Byte} (hwf : s.params.wf = true)
    (heval : s.evaluated i = fitted s.params.outCap x.length x) (hfit : x.length ≤ s.params.outCap) :
    ∃ r, exec i s = .next r ∧ r.result = .ok ∧ r.outLen.toNat = x.length ∧ r.outBytes x.length = x := by
  obtain ⟨-, -, -, hcap⟩ := (Params.wf_iff s.params).mp hwf
  obtain ⟨hlen, hbytes⟩ := s.finish_ok_output (bs := x) rfl (hfit.trans hcap)
  exact ⟨_, exec_of_evaluated (heval.trans (fitted_of_le hfit x)), rfl, hlen, hbytes⟩

/-- What an ENCODE of non-empty input that ends with OK has left: the text (R110, R113). -/
theorem output_of_encode_ok {s u : State} {w : Bool} (hwf : s.params.wf = true) (h1 : 1 ≤ s.inLen.toNat)
    (hin : s.inLen.toNat ≤ s.params.inCap) (hexec : exec (.encode w false) s = .next u) (hok : u.result = .ok) :
    u.outBytes u.outLen.toNat = encodeText w (s.inBytes s.inLen.toNat) := by
  by_cases hfit : encodeLen w s.inLen.toNat ≤ s.params.outCap
  · obtain ⟨-, -, -, hcap⟩ := (Params.wf_iff s.params).mp hwf
    cases (exec_encode_ok h1 hin hfit).symm.trans hexec
    obtain ⟨hlen, hbytes⟩ := s.finish_ok_output (bs := encodeText w (s.inBytes s.inLen.toNat))
      (n := encodeLen w s.inLen.toNat) (by rw [encodeText_length, State.inBytes_length]) (hfit.trans hcap)
    rw [hlen, hbytes]
  · cases (exec_encode_noMemory h1 hin (Nat.lt_of_not_le hfit)).symm.trans hexec
    cases hok

/-- Settles O32: both decoders give the text's input back, and an empty input has an empty text. -/
theorem roundTripThroughBothDecoders : Obligations.RoundTripThroughBothDecoders := by
  intro s u t w v hwfs hwft hin hexec hok hinLen hinput hinCap houtCap
  rcases Nat.eq_zero_or_pos s.inLen.toNat with h0 | h1
  · have hs : s.inLen = 0 := BitVec.eq_of_toNat_eq h0
    obtain ⟨hencode, -, -⟩ := emptyInputSucceedsEmpty s w hs
    cases hencode.symm.trans hexec
    obtain ⟨-, hdecode, hfast⟩ := emptyInputSucceedsEmpty t v hinLen
    rw [hs]
    exact ⟨⟨_, hdecode, rfl, rfl, rfl⟩, ⟨_, hfast, rfl, rfl, rfl⟩⟩
  · have htext := hinput.trans (output_of_encode_ok hwfs h1 hin hexec hok)
    obtain ⟨x, hx⟩ : ∃ x, x = s.inBytes s.inLen.toNat := ⟨_, rfl⟩
    have hlen : x.length = s.inLen.toNat := by rw [hx, State.inBytes_length]
    have hne : x ≠ [] := List.ne_nil_of_length_pos (hlen ▸ h1)
    rw [← hx] at htext ⊢
    have ht1 : 1 ≤ t.inLen.toNat := by
      rw [← t.inBytes_length t.inLen.toNat, htext]
      exact List.length_pos_of_ne_nil (encodeFrom_ne_nil hne)
    have ht2 : t.inLen.toNat ≤ t.params.inCap := hinLen ▸ hinCap
    have hreturns : ∀ i, t.evaluated i = fitted t.params.outCap x.length x →
        ∃ r, exec i t = .next r ∧ r.result = .ok ∧ r.outLen = s.inLen ∧ r.outBytes r.outLen.toNat = x := by
      intro i heval
      obtain ⟨r, hr, hrok, hrlen, hrbytes⟩ := exec_of_evaluated_fitted hwft heval (hlen ▸ houtCap)
      exact ⟨r, hr, hrok, BitVec.eq_of_toNat_eq (hrlen.trans hlen), hrlen ▸ hrbytes⟩
    refine ⟨hreturns _ ?_, hreturns _ ?_⟩
    · rw [State.evaluated, State.checked_run ht1 ht2, htext, decodeOp_encodeText w hne]
    · rw [State.evaluated, State.checked_run ht1 ht2, htext, decodeFastOp_encodeText w hne]

end Sys2Proof.Machine
end

section
/-! PROOFS. The statements of 41_decode.md: the padding count, the bytes DECODE writes, the ends of bad structure and of too long
outputs, and that DECODE looks at the meaningful characters only. -/

namespace Sys2Proof.Machine

/-! ## The padding count (R135) -/

/-- The scan begins at the last byte: a separator is skipped, a `=` is counted, a symbol ends it (R135). -/
theorem padCount_concat (x : List Byte) (b : Byte) :
    padCount (x ++ [b]) = if isSep b then padCount x else if b = padByte then padCount x + 1 else 0 := by
  simp [padCount, padScan]

theorem padCount_concat_symbol (x : List Byte) {b : Byte} (h : isSymbol b = true) : padCount (x ++ [b]) = 0 := by
  simp [padCount_concat, isSep_of_isSymbol h, ne_padByte_of_isSymbol h]

theorem padCount_concat_sep (x : List Byte) {b : Byte} (h : isSep b = true) : padCount (x ++ [b]) = padCount x := by
  simp [padCount_concat, h]

theorem padCount_concat_pad (x : List Byte) : padCount (x ++ [padByte]) = padCount x + 1 := by
  simp [padCount_concat, isSep_padByte]

/-- A separator is neither a symbol nor `=` (R91). -/
theorem isSep_iff (b : Byte) : isSep b = true ↔ isSymbol b = false ∧ b ≠ padByte := by simp [isSep]

/-- A byte is a symbol, a separator or `=` (R91). -/
theorem byte_class (b : Byte) : isSymbol b = true ∨ isSep b = true ∨ b = padByte := by
  cases hsymbol : isSymbol b with
  | true => exact .inl rfl
  | false => simpa [isSep_iff, hsymbol] using ne_or_eq b padByte

/-- Position `i` of a text holds a `=` with no symbol after it (R135). -/
def isTrailingPad (x : List Byte) (i : Nat) : Bool :=
  x.getD i 0 == padByte && (x.drop (i + 1)).all fun b => !isSymbol b

/-- The positions of R135. -/
def trailingPads (x : List Byte) : List Nat := (List.range x.length).filter (isTrailingPad x)

/-- One more byte leaves such a position as it is, unless the byte is a symbol. -/
theorem isTrailingPad_concat {x : List Byte} {i : Nat} (hi : i < x.length) (b : Byte) :
    isTrailingPad (x ++ [b]) i = (isTrailingPad x i && !isSymbol b) := by
  rw [isTrailingPad, List.getD_append _ _ _ _ hi, List.drop_append_of_le_length hi]
  simp [isTrailingPad, Bool.and_assoc]

/-- The last position is such a one if it holds `=`. -/
theorem isTrailingPad_concat_last (x : List Byte) (b : Byte) : isTrailingPad (x ++ [b]) x.length = (b == padByte) := by
  simp [isTrailingPad]

theorem trailingPads_concat (x : List Byte) (b : Byte) :
    trailingPads (x ++ [b]) =
      (if isSymbol b then [] else trailingPads x) ++ if b = padByte then [x.length] else [] := by
  have hbefore : (List.range x.length).filter (isTrailingPad (x ++ [b])) =
      (List.range x.length).filter fun i => isTrailingPad x i && !isSymbol b :=
    List.filter_congr fun i hi => isTrailingPad_concat (List.mem_range.mp hi) b
  rw [trailingPads, List.length_append, List.length_singleton, List.range_succ, List.filter_append, hbefore]
  congr 1
  · cases isSymbol b <;> simp [trailingPads]
  · simp [List.filter_cons, isTrailingPad_concat_last]

/-- `pad` is the number of `=` with no symbol after them: both sides change alike with each further byte (R135). -/
theorem padCount_eq_length_trailingPads (x : List Byte) : padCount x = (trailingPads x).length := by
  induction x using List.reverseRecOn with
  | nil => rfl
  | append_singleton x b ih =>
    rw [trailingPads_concat]
    rcases byte_class b with hsymbol | hsep | rfl
    · simp [padCount_concat_symbol x hsymbol, hsymbol, ne_padByte_of_isSymbol hsymbol]
    · obtain ⟨hsymbol, hpad⟩ := (isSep_iff b).mp hsep
      simp [padCount_concat_sep x hsep, hsymbol, hpad, ih]
    · simp [padCount_concat_pad, isSymbol_padByte, ih]

/-- Settles O23, by the scan's step on one more byte. -/
theorem padCountsTrailingPadding : Obligations.PadCountsTrailingPadding :=
  ⟨rfl, fun x _ => padCount_concat_symbol x, fun x _ => padCount_concat_sep x, padCount_concat_pad,
    padCount_eq_length_trailingPads⟩

/-! ## Meaningful characters only (R131, R142) -/

/-- The scan skips separators, wherever they stand (R131, R135). -/
theorem padCount_meaningful (x : List Byte) : padCount (meaningful x) = padCount x := by
  induction x using List.reverseRecOn with
  | nil => rfl
  | append_singleton x b ih =>
    have hsnoc : meaningful (x ++ [b]) = meaningful x ++ if isSep b then [] else [b] := by
      cases h : isSep b <;> simp [meaningful, isMean, h]
    rw [hsnoc]
    cases hsep : isSep b with
    | true => simp [padCount_concat_sep x hsep, ih]
    | false => simp [padCount_concat, ih]

theorem meaningful_meaningful (x : List Byte) : meaningful (meaningful x) = meaningful x := by simp [meaningful]

theorem meanCount_meaningful (x : List Byte) : meanCount (meaningful x) = meanCount x := by
  rw [← meaningful_length, meaningful_meaningful, meaningful_length]

/-- Deleting the separators changes nothing for DECODE (R131). -/
theorem decodeOp_meaningful (outCap : Nat) (x : List Byte) : decodeOp outCap (meaningful x) = decodeOp outCap x := by
  simp only [decodeOp, decodeText, decodeLen, meaningful_meaningful, meanCount_meaningful, padCount_meaningful]

/-- Inputs with the same meaningful characters are the same to DECODE (R131). -/
theorem decodeOp_congr {x x' : List Byte} (h : meaningful x = meaningful x') (outCap : Nat) :
    decodeOp outCap x = decodeOp outCap x' := by
  rw [← decodeOp_meaningful, h, decodeOp_meaningful]

/-- Of no character the decode pass makes nothing, and that fits any buffer (R142). -/
theorem decodeOp_nil (outCap : Nat) : decodeOp outCap [] = .finish .ok 0 [] := fitted_of_le (Nat.zero_le outCap) _

/-- DECODE of a present input that fits IN_CAP; an empty one gives what the operation gives on no bytes (R130, R133). -/
theorem State.evaluated_decode {s : State} (w : Bool) (hin : s.inLen.toNat ≤ s.params.inCap) :
    s.evaluated (.decode w false) = decodeOp s.params.outCap (s.inBytes s.inLen.toNat) := by
  rw [State.evaluated]
  rcases Nat.eq_zero_or_pos s.inLen.toNat with h0 | h1
  · rw [State.checked_empty h0, h0]
    exact (decodeOp_nil _).symm
  · exact State.checked_run h1 hin _ _

/-- Settles O24: both states evaluate DECODE to the same completion, and that is determined. -/
theorem decodeIgnoresSeparators : Obligations.DecodeIgnoresSeparators := by
  intro s s' w w' hout hin hin' hmean
  have heval : s'.evaluated (.decode w' false) = decodeOp s.params.outCap (s.inBytes s.inLen.toNat) := by
    rw [State.evaluated_decode w' hin', ← hout]
    exact (decodeOp_congr hmean _).symm
  exact ⟨_, _, exec_of_evaluated (State.evaluated_decode w hin), exec_of_evaluated heval,
    s.complete_agree s' (decodeOp_determined _ _)⟩

/-- Settles O25: without meaningful characters DECODE does what it does on no bytes, and DECODE_FAST asks for this first. -/
theorem separatorsOnlyDecodeToNothing : Obligations.SeparatorsOnlyDecodeToNothing := by
  intro s w h1 hin hsep
  have hall : (s.inBytes s.inLen.toNat).all isSep = true := List.all_eq_true.mpr hsep
  have hnone : meaningful (s.inBytes s.inLen.toNat) = meaningful [] := by simpa [meaningful, isMean] using hsep
  refine ⟨exec_of_evaluated_empty ?_, exec_of_evaluated_empty ?_⟩
  · rw [State.evaluated_decode w hin, decodeOp_congr hnone, decodeOp_nil]
  · rw [State.evaluated, State.checked_run h1 hin, decodeFastOp, if_pos hall]

/-! ## The structural checks and the length (R134, R136, R137) -/

/-- Either structural check answers Base64EncodingInvalid (R134, R136). -/
theorem decodeOp_invalid (outCap : Nat) {x : List Byte} (h : meanCount x % 4 ≠ 0 ∨ 2 < padCount x) :
    decodeOp outCap x = .finish .base64EncodingInvalid 0 [] := by
  unfold decodeOp
  split
  · rfl
  · next hgroups => exact if_pos (h.resolve_left hgroups)

/-- After both structural checks only the length is left to check (R137). -/
theorem decodeOp_valid (outCap : Nat) {x : List Byte} (hgroups : meanCount x % 4 = 0) (hpad : padCount x ≤ 2) :
    decodeOp outCap x = fitted outCap (decodeLen x) (decodeText x) := by
  rw [decodeOp, if_neg (not_not.mpr hgroups), if_neg (Nat.not_lt.mpr hpad)]

/-- `m` of R134, as the statements spell it. -/
theorem length_filter_isMean (x : List Byte) : (x.filter isMean).length = meanCount x := meaningful_length x

/-- Settles O21. -/
theorem decodeRejectsBadStructure : Obligations.DecodeRejectsBadStructure := by
  intro s w x _ hin hx hbad
  subst hx
  rw [length_filter_isMean] at hbad
  exact exec_of_evaluated_empty ((State.evaluated_decode w hin).trans (decodeOp_invalid _ hbad))

/-- Settles O22: both structural checks pass, and the last check answers. -/
theorem decodeTooLongGivesNoMemory : Obligations.DecodeTooLongGivesNoMemory := by
  intro s w x _ hin hx hgroups hpad hlong
  subst hx
  rw [length_filter_isMean] at hgroups hlong
  exact exec_of_evaluated_empty (((State.evaluated_decode w hin).trans (decodeOp_valid _ hgroups hpad)).trans
    (fitted_of_lt hlong _))

/-! ## The bytes (R138, R139) -/

/-- Three bytes on, the text's bytes are those of the text four characters on (R138). -/
theorem textByte_add_three (c0 c1 c2 c3 : Byte) (cs : List Byte) (d : Nat) :
    textByte (c0 :: c1 :: c2 :: c3 :: cs) (d + 3) = textByte cs d := by
  have hgroup : (d + 3) / 3 = d / 3 + 1 := Nat.add_div_right d (by decide)
  rw [textByte, hgroup, Nat.add_mod_right]
  rfl

/-- Each byte of the whole groups stands in its place (R138). -/
theorem unpackGroups_getD {y : List Byte} {d : Nat} (hd : d < (unpackGroups y).length) :
    (unpackGroups y).getD d 0 = textByte y d := by
  induction y using unpackGroups.induct generalizing d with
  | case1 c0 c1 c2 c3 cs ih =>
    match d with
    | 0 | 1 | 2 => rfl
    | d + 3 =>
      rw [unpackGroups, List.length_append, groupBytes_length] at hd
      rw [textByte_add_three]
      exact ih (by omega)
  | case2 y hshort => simp [unpackGroups] at hd

/-- Each byte of the output is that of its place in the groups (R138, R139). -/
theorem decodeText_getD {x : List Byte} {d : Nat} (hd : d < (decodeText x).length) :
    (decodeText x).getD d 0 = textByte (meaningful x) d := by
  rw [decodeText, List.length_take, Nat.lt_min] at hd
  obtain ⟨hlen, hgroups⟩ := hd
  rw [← unpackGroups_getD hgroups, decodeText, List.getD_eq_getElem?_getD, List.getElem?_take_of_lt hlen,
    List.getD_eq_getElem?_getD]

/-- Settles O20: DECODE ends with OK and its text, and each byte of that is known by its place. -/
theorem decodeWritesTheBytes : Obligations.DecodeWritesTheBytes := by
  intro s w n len x y hwf hn _ hin hx hy hgroups hpad hlen hfit
  obtain ⟨-, -, -, hcap⟩ := (Params.wf_iff s.params).mp hwf
  subst hn hx hy
  rw [length_filter_isMean] at hgroups hlen
  have hlen : len = decodeLen (s.inBytes s.inLen.toNat) := hlen
  subst hlen
  have hbytes := decodeText_length hgroups
  have hread := s.finish_ok_outByte hbytes.symm
  have heval := ((State.evaluated_decode w hin).trans (decodeOp_valid _ hgroups hpad)).trans (fitted_of_le hfit _)
  exact ⟨_, exec_of_evaluated heval, rfl, Nat.mod_eq_of_lt (by omega), rfl, rfl,
    fun d hd => ((hread d).trans (if_pos hd)).trans (decodeText_getD (hbytes ▸ hd)),
    fun a ha => (hread a).trans (if_neg (Nat.not_lt.mpr ha))⟩

end Sys2Proof.Machine
end

section
/-! PROOFS. The statements of 42_decode_fast.md: what FastPre decides, the wrapping at 76, what DECODE_FAST does on its precondition
and outside it, and that every text of ENCODE meets the precondition. -/

namespace Sys2Proof.Machine

/-! ## Wrapping, line by line (R152) -/

/-- A completed line is followed by CR LF if the text goes on. -/
theorem wrapFrom_append_line {k : Nat} {l : List Byte} (hk : k ≤ 75) (hl : k + l.length = 76) {cs : List Byte}
    (hcs : cs ≠ []) : wrapFrom k (l ++ cs) = l ++ crByte :: lfByte :: wrap76 cs := by
  induction l generalizing k with
  | nil =>
    rw [List.length_nil] at hl
    omega
  | cons b l ih =>
    rw [List.length_cons] at hl
    rw [List.cons_append, wrapFrom]
    by_cases hline : k = 75
    · have hnil : l = [] := List.eq_nil_of_length_eq_zero (by omega)
      simp [hnil, hline, hcs, wrap76]
    · simp [hline, ih (k := k + 1) (by omega) (by omega)]

theorem wrap76_append_line {l cs : List Byte} (hl : l.length = 76) (hcs : cs ≠ []) :
    wrap76 (l ++ cs) = l ++ crByte :: lfByte :: wrap76 cs :=
  wrapFrom_append_line (Nat.zero_le _) (by omega) hcs

/-- One line is not wrapped (R152). -/
theorem wrap76_of_short {y : List Byte} (h : y.length ≤ 76) : wrap76 y = y := wrapFrom_eq_self (by omega)

/-- What holds of one line, and of every text that goes on after a line if it holds of what follows, holds of every text. -/
theorem lines_induction {P : List Byte → Prop} (short : ∀ y, y.length ≤ 76 → P y)
    (line : ∀ l cs, l.length = 76 → cs ≠ [] → P cs → P (l ++ cs)) (y : List Byte) : P y := by
  induction hn : y.length using Nat.strong_induction_on generalizing y with
  | h n ih =>
    by_cases hshort : y.length ≤ 76
    · exact short y hshort
    · have hrest : (y.drop 76).length = n - 76 := by rw [List.length_drop, hn]
      rw [← List.take_append_drop 76 y]
      exact line _ _ (by rw [List.length_take]; omega) (List.ne_nil_of_length_pos (by omega)) (ih _ (by omega) _ hrest)

theorem wrap76_length (y : List Byte) : (wrap76 y).length = y.length + 2 * ((y.length - 1) / 76) := by
  induction y using lines_induction with
  | short y h =>
    rw [wrap76_of_short h]
    omega
  | line l cs hl hcs ih =>
    have hpos := List.length_pos_of_ne_nil hcs
    simp only [wrap76_append_line hl hcs, List.length_append, List.length_cons, ih]
    omega

/-- Behind a line stand CR LF and the wrapped rest. -/
theorem wrap76_getD_after_line {l cs : List Byte} (hl : l.length = 76) (hcs : cs ≠ []) (i : Nat) :
    (wrap76 (l ++ cs)).getD (76 + i) 0 = (crByte :: lfByte :: wrap76 cs).getD i 0 := by
  rw [wrap76_append_line hl hcs, List.getD_append_right _ _ _ _ (by omega), hl, Nat.add_sub_cancel_left]

/-- Byte `i` stands behind the CR LF of each line before it. -/
theorem wrap76_getD_byte {y : List Byte} {i : Nat} (hi : i < y.length) :
    (wrap76 y).getD (i + 2 * (i / 76)) 0 = y.getD i 0 := by
  induction y using lines_induction generalizing i with
  | short y h => rw [wrap76_of_short h, show i + 2 * (i / 76) = i by omega]
  | line l cs hl hcs ih =>
    by_cases hfirst : i < 76
    · rw [show i + 2 * (i / 76) = i by omega, wrap76_append_line hl hcs, List.getD_append _ _ _ _ (by omega),
        List.getD_append _ _ _ _ (by omega)]
    · obtain ⟨d, rfl⟩ : ∃ d, i = 76 + d := ⟨i - 76, by omega⟩
      rw [List.length_append] at hi
      rw [show 76 + d + 2 * ((76 + d) / 76) = 76 + (d + 2 * (d / 76) + 2) by omega, wrap76_getD_after_line hl hcs,
        List.getD_append_right _ _ _ _ (by omega), hl, Nat.add_sub_cancel_left]
      exact ih (by omega)

/-- CR LF `j` stands behind line `j`, if a byte follows. -/
theorem wrap76_getD_break {y : List Byte} {j : Nat} (hj : 1 ≤ j) (h : 76 * j < y.length) :
    (wrap76 y).getD (78 * j - 2) 0 = crByte ∧ (wrap76 y).getD (78 * j - 1) 0 = lfByte := by
  induction y using lines_induction generalizing j with
  | short y hshort => omega
  | line l cs hl hcs ih =>
    have hbehind := wrap76_getD_after_line hl hcs
    obtain rfl | hlater : j = 1 ∨ 2 ≤ j := by omega
    · exact ⟨hbehind 0, hbehind 1⟩
    · obtain ⟨k, rfl⟩ : ∃ k, j = k + 1 := ⟨j - 1, by omega⟩
      rw [List.length_append] at h
      rw [show 78 * (k + 1) - 2 = 76 + (78 * k - 2 + 2) by omega, show 78 * (k + 1) - 1 = 76 + (78 * k - 1 + 2) by omega,
        hbehind, hbehind]
      exact ih (by omega) (by omega)

/-- Settles O27, by induction over the lines. -/
theorem wrapAtSeventySix : Obligations.WrapAtSeventySix := fun y =>
  ⟨wrap76_length y, fun _ => wrap76_getD_byte, fun _ => wrap76_getD_break⟩

/-- Wrapping whole groups leaves the last four characters side by side (R155). -/
theorem suffix_wrap76 {t y : List Byte} (hgroups : y.length % 4 = 0) (ht : t.length ≤ 4) (hsuffix : t <:+ y) :
    t <:+ wrap76 y := by
  induction y using lines_induction with
  | short y h => rwa [wrap76_of_short h]
  | line l cs hl hcs ih =>
    have hpos := List.length_pos_of_ne_nil hcs
    rw [List.length_append] at hgroups
    have hrest : t <:+ cs := List.suffix_of_suffix_length_le hsuffix (List.suffix_append l cs) (by omega)
    rw [wrap76_append_line hl hcs]
    exact (ih (by omega) hrest).trans ⟨l ++ [crByte, lfByte], by simp⟩

/-! ## The content (R154) -/

/-- The content as Mathlib's functions give it: the text without the separators in front, then without those at the end. -/
theorem content_eq_rdropWhile (x : List Byte) : content x = (x.dropWhile isSep).rdropWhile isSep := rfl

theorem isMean_eq_true_iff (b : Byte) : isMean b = true ↔ isSep b = false := by simp [isMean]

theorem isMean_eq_false_iff (b : Byte) : isMean b = false ↔ isSep b = true := by simp [isMean]

/-- No character is meaningful where all bytes are separators (R91, R131). -/
theorem meaningful_eq_nil_iff (x : List Byte) : meaningful x = [] ↔ ∀ b ∈ x, isSep b = true := by
  simp [meaningful, List.filter_eq_nil_iff, isMean]

theorem meaningful_surround {front back : List Byte} (hfront : ∀ b ∈ front, isSep b = true)
    (hback : ∀ b ∈ back, isSep b = true) (c : List Byte) : meaningful (front ++ c ++ back) = meaningful c := by
  have happend : ∀ a b, meaningful (a ++ b) = meaningful a ++ meaningful b := fun a b => List.filter_append a b
  rw [happend, happend, (meaningful_eq_nil_iff front).mpr hfront, (meaningful_eq_nil_iff back).mpr hback, List.nil_append,
    List.append_nil]

/-- Separators around a text are no part of its content. -/
theorem content_surround {front back : List Byte} (hfront : ∀ b ∈ front, isSep b = true)
    (hback : ∀ b ∈ back, isSep b = true) (c : List Byte) : content (front ++ c ++ back) = content c := by
  have hend : ∀ d : List Byte, (d ++ back).rdropWhile isSep = d.rdropWhile isSep := fun d => by
    rw [List.rdropWhile, List.reverse_append, List.dropWhile_append_of_pos (by simpa using hback), ← List.rdropWhile]
  rw [content_eq_rdropWhile, List.append_assoc, List.dropWhile_append_of_pos hfront, List.dropWhile_append]
  split
  · next hnil =>
    have hnone : back.dropWhile isSep = [] := List.dropWhile_eq_nil_iff.mpr hback
    rw [content_eq_rdropWhile, hnone, List.isEmpty_iff.mp hnil]
  · exact hend _

/-- A text is its content between separators. -/
theorem exists_surround (x : List Byte) :
    ∃ front back, x = front ++ content x ++ back ∧ (∀ b ∈ front, isSep b = true) ∧ (∀ b ∈ back, isSep b = true) := by
  refine ⟨x.takeWhile isSep, (x.dropWhile isSep).rtakeWhile isSep, ?_, fun b => List.mem_takeWhile_imp,
    fun b => List.mem_rtakeWhile_imp⟩
  rw [content_eq_rdropWhile, List.append_assoc, List.rdropWhile_append_rtakeWhile, List.takeWhile_append_dropWhile]

theorem meaningful_content (x : List Byte) : meaningful (content x) = meaningful x := by
  obtain ⟨front, back, hx, hfront, hback⟩ := exists_surround x
  exact ((congrArg meaningful hx).trans (meaningful_surround hfront hback _)).symm

theorem headD_eq_head {c : List Byte} (hc : c ≠ []) : c.headD 0 = c.head hc := by
  rw [List.headD_eq_head?_getD, List.head?_eq_some_head hc, Option.getD_some]

theorem getLastD_eq_getLast {c : List Byte} (hc : c ≠ []) : c.getLastD 0 = c.getLast hc := by
  rw [List.getLastD_eq_getLast?, List.getLast?_eq_some_getLast hc, Option.getD_some]

/-- The content begins and ends with a meaningful character, if there is one. -/
theorem content_ends {x : List Byte} (hc : content x ≠ []) :
    isMean ((content x).headD 0) = true ∧ isMean ((content x).getLastD 0) = true := by
  rw [headD_eq_head hc, getLastD_eq_getLast hc, isMean_eq_true_iff, isMean_eq_true_iff]
  refine ⟨?_, Bool.eq_false_of_not_eq_true (List.rdropWhile_last_not isSep (x.dropWhile isSep) hc)⟩
  have hprefix : content x <+: x.dropWhile isSep := List.rdropWhile_prefix isSep _
  rw [hprefix.head hc]
  exact List.head_dropWhile_not isSep _

/-- A text between meaningful characters is its own content. -/
theorem content_eq_self_of_ends {c : List Byte} (hc : c ≠ []) (hfirst : isMean (c.headD 0) = true)
    (hlast : isMean (c.getLastD 0) = true) : content c = c := by
  rw [headD_eq_head hc, isMean_eq_true_iff] at hfirst
  rw [getLastD_eq_getLast hc, isMean_eq_true_iff] at hlast
  have hfront : c.dropWhile isSep = c := List.dropWhile_eq_self_iff.mpr fun _ => by
    rw [← List.head_eq_getElem hc, hfirst]
    exact Bool.false_ne_true
  rw [content_eq_rdropWhile, hfront, List.rdropWhile_eq_self_iff]
  intro _
  rw [hlast]
  exact Bool.false_ne_true

/-! ## What FastPre decides (R152) -/

/-- A well padded text is symbols and then at most two `=`, a multiple of four in all (R152). -/
theorem exists_padding {y : List Byte} (h : wellPadded y = true) :
    ∃ z p, y = z ++ List.replicate p padByte ∧ (∀ b ∈ z, isSymbol b = true) ∧ p ≤ 2 ∧ (z.length + p) % 4 = 0 := by
  obtain ⟨⟨hgroups, hpads⟩, htwo⟩ : (y.length % 4 = 0 ∧ ∀ b ∈ y.dropWhile isSymbol, b = padByte) ∧
      (y.dropWhile isSymbol).length ≤ 2 := by simpa [wellPadded] using h
  have hsplit : y.takeWhile isSymbol ++ y.dropWhile isSymbol = y := List.takeWhile_append_dropWhile
  refine ⟨y.takeWhile isSymbol, (y.dropWhile isSymbol).length, ?_, fun b => List.mem_takeWhile_imp, htwo, ?_⟩
  · rw [← List.eq_replicate_of_mem hpads, hsplit]
  · rw [← List.length_append, hsplit, hgroups]

/-- R152 (b), of an input `x` whose meaningful characters are symbols `z` and then `p` times `=`. -/
structure FastContent (x z : List Byte) (p : Nat) : Prop where
  present : meaningful x ≠ []
  chars   : meaningful x = z ++ List.replicate p padByte
  symbols : ∀ b ∈ z, isSymbol b = true
  padding : p ≤ 2
  groups  : (z.length + p) % 4 = 0
  form    : content x = meaningful x ∨ content x = wrap76 (meaningful x)

/-- With a meaningful character, FastPre is R152 (b). -/
theorem fastPre_iff_fastContent {x : List Byte} (hx : meaningful x ≠ []) : fastPre x = true ↔ ∃ z p, FastContent x z p := by
  have hall : x.all isSep = false := by
    by_contra h
    exact hx ((meaningful_eq_nil_iff x).mpr (by simpa using h))
  rw [fastPre, hall, Bool.false_or, meaningful_content, Bool.and_eq_true, Bool.or_eq_true, beq_iff_eq, beq_iff_eq]
  constructor
  · rintro ⟨hpadded, hform⟩
    obtain ⟨z, p, hchars, hz, hp, hgroups⟩ := exists_padding hpadded
    exact ⟨z, p, hx, hchars, hz, hp, hgroups, hform⟩
  · rintro ⟨z, p, h⟩
    exact ⟨h.chars ▸ wellPadded_append_replicate h.symbols h.padding h.groups, h.form⟩

/-- Without a meaningful character, FastPre is R152 (a). -/
theorem fastPre_of_separators {x : List Byte} (hx : ∀ b ∈ x, isSep b = true) : fastPre x = true := by
  rw [fastPre, List.all_eq_true.mpr hx, Bool.true_or]

/-- Settles O26: the content is the part between the outer separators. -/
theorem fastPreDecidesThePrecondition : Obligations.FastPreDecidesThePrecondition := by
  intro x
  by_cases hx : meaningful x = []
  · have hsep := (meaningful_eq_nil_iff x).mp hx
    exact iff_of_true (fastPre_of_separators hsep) (.inl fun b hb => (isMean_eq_false_iff b).mpr (hsep b hb))
  · rw [fastPre_iff_fastContent hx]
    constructor
    · rintro ⟨z, p, h⟩
      obtain ⟨front, back, hsplit, hfront, hback⟩ := exists_surround x
      have hchars : (content x).filter isMean = meaningful x := meaningful_content x
      have hne : content x ≠ [] := fun hnil => hx (by rw [← hchars, hnil, List.filter_nil])
      obtain ⟨hfirst, hlast⟩ := content_ends hne
      exact .inr ⟨front, content x, back, z, p, hsplit, hfront, hback, hne, hfirst, hlast, hchars.trans h.chars, h.symbols,
        h.padding, h.groups, hchars.symm ▸ h.form⟩
    · rintro (hnone | ⟨front, c, back, z, p, rfl, hfront, hback, hne, hfirst, hlast, hchars, hz, hp, hgroups, hform⟩)
      · exact absurd ((meaningful_eq_nil_iff x).mpr fun b hb => (isMean_eq_false_iff b).mp (hnone b hb)) hx
      · have hcontent : content (front ++ c ++ back) = c :=
          (content_surround hfront hback c).trans (content_eq_self_of_ends hne hfirst hlast)
        have hmean : meaningful (front ++ c ++ back) = c.filter isMean := meaningful_surround hfront hback c
        exact ⟨z, p, hx, hmean.trans hchars, hz, hp, hgroups, by rwa [hcontent, hmean]⟩

/-- Separators around a text do not matter to FastPre (R152, R154). -/
theorem fastPre_surround {front back : List Byte} (hfront : ∀ b ∈ front, isSep b = true)
    (hback : ∀ b ∈ back, isSep b = true) (c : List Byte) : fastPre (front ++ c ++ back) = fastPre c := by
  have hall : (front ++ c ++ back).all isSep = c.all isSep := by
    rw [List.all_append, List.all_append, List.all_eq_true.mpr hfront, List.all_eq_true.mpr hback, Bool.true_and,
      Bool.and_true]
  rw [fastPre, fastPre, hall, content_surround hfront hback]

/-- Settles O31: the text itself meets FastPre, and an empty text does. -/
theorem encodeOutputMeetsFastPre : Obligations.EncodeOutputMeetsFastPre := by
  intro w x front back hfront hback
  rw [fastPre_surround hfront hback]
  rcases eq_or_ne x [] with rfl | hx
  · rfl
  · exact fastPre_encodeText w hx

/-! ## Outside FastPre (R161) -/

/-- DECODE_FAST of a present, non-empty input that fits IN_CAP (R150). -/
theorem State.evaluated_decodeFast {s : State} (w : Bool) (h1 : 1 ≤ s.inLen.toNat) (hin : s.inLen.toNat ≤ s.params.inCap) :
    s.evaluated (.decodeFast w false) = decodeFastOp s.params.outCap (s.inBytes s.inLen.toNat) :=
  State.checked_run h1 hin _ _

theorem decodeFastOp_of_not_fastPre (outCap : Nat) {x : List Byte} (h : fastPre x = false) : decodeFastOp outCap x = .draw := by
  have hmean : ¬ x.all isSep = true := fun hall => by
    rw [fastPre_of_separators (List.all_eq_true.mp hall)] at h
    cases h
  rw [decodeFastOp, if_neg hmean, h]
  rfl

/-- A drawn OUT_LEN is within OUT_CAP (R161). -/
theorem drawn_outLen_le (s : State) :
    (BitVec.ofNat 32 (Config.freeLen s.draws % (s.params.outCap + 1))).toNat ≤ s.params.outCap :=
  (Nat.mod_le _ _).trans (Nat.le_of_lt_succ (Nat.mod_lt _ (Nat.succ_pos _)))

/-- Settles O30: the command ends in the draw, which is either of two states. -/
theorem fastOutsideItsPreconditionIsADraw : Obligations.FastOutsideItsPreconditionIsADraw := by
  rintro s w - ⟨-, -, h1, hin, hpre⟩
  have heval : s.evaluated (.decodeFast w false) = .draw :=
    (State.evaluated_decodeFast w h1 hin).trans (decodeFastOp_of_not_fastPre _ hpre)
  refine ⟨s.finishDraw, exec_of_evaluated heval, ?_⟩
  rcases s.finishDraw_cases with hdraw | hdraw <;> rw [hdraw]
  · exact ⟨.inl ⟨rfl, rfl, rfl⟩, rfl, rfl, rfl, rfl, rfl, rfl, rfl, Nat.lt_succ_self _⟩
  · exact ⟨.inr ⟨rfl, drawn_outLen_le s, fun i _ => rfl⟩, rfl, rfl, rfl, rfl, rfl, rfl, rfl, Nat.lt_succ_self _⟩

/-! ## On FastPre (R154 to R160) -/

/-- The probe finds no line break in a text of meaningful characters (R156). -/
theorem fastSep_of_isMean {y : List Byte} (hy : ∀ b ∈ y, isMean b = true) : fastSep y = 0 := by
  rw [fastSep, fastWrapped_of_isMean hy, if_neg Bool.false_ne_true]

/-- The probe finds the number of separators of a wrapped text (R156). -/
theorem fastSep_wrap76 {y : List Byte} (hy : ∀ b ∈ y, isMean b = true) : fastSep (wrap76 y) = 2 * ((y.length - 1) / 76) := by
  by_cases hshort : y.length ≤ 76
  · rw [wrap76_of_short hshort, fastSep_of_isMean hy]
    omega
  · have hlen := wrap76_length y
    have hcr : (wrap76 y).getD 76 0 = crByte := (wrap76_getD_break (j := 1) le_rfl (by omega)).1
    have hmore : 76 < (wrap76 y).length := by omega
    have hwrapped : fastWrapped (wrap76 y) = true := by rw [fastWrapped, hcr, decide_eq_true hmore]; rfl
    rw [fastSep, hwrapped, if_pos rfl]
    omega

theorem isMean_of_mem_meaningful (x : List Byte) : ∀ b ∈ meaningful x, isMean b = true :=
  fun _ hb => (List.mem_filter.mp hb).2

namespace FastContent

variable {x z : List Byte} {p : Nat}

/-- There is a symbol, since padding alone makes no group. -/
theorem exists_last_symbol (h : FastContent x z p) :
    ∃ a c, meaningful x = a ++ c :: List.replicate p padByte ∧ isSymbol c = true := by
  rcases List.eq_nil_or_concat z with rfl | ⟨a, c, rfl⟩
  · have hp := h.padding
    have hgroups := h.groups
    rw [List.length_nil] at hgroups
    obtain rfl : p = 0 := by omega
    exact absurd h.chars h.present
  · exact ⟨a, c, h.chars.trans (by simp), h.symbols c (by simp)⟩

theorem meanCount_eq (h : FastContent x z p) : meanCount x = z.length + p := by
  rw [← meaningful_length, h.chars, List.length_append, List.length_replicate]

theorem padCount_eq (h : FastContent x z p) : padCount x = p := by
  obtain ⟨a, c, hchars, hc⟩ := h.exists_last_symbol
  rw [← padCount_meaningful, hchars, padCount_append_replicate a hc]

/-- No CR LF falls among the last symbol and the padding, so looking at the last two bytes finds the padding (R155). -/
theorem fastPad_eq (h : FastContent x z p) : fastPad (content x) = p := by
  obtain ⟨a, c, hchars, hc⟩ := h.exists_last_symbol
  have hp := h.padding
  have hend : c :: List.replicate p padByte <:+ content x := by
    have hsuffix : c :: List.replicate p padByte <:+ meaningful x := ⟨a, hchars.symm⟩
    rcases h.form with hform | hform <;> rw [hform]
    · exact hsuffix
    · exact suffix_wrap76 (by rw [meaningful_length, h.meanCount_eq, h.groups]) (by simp; omega) hsuffix
  obtain ⟨b, hb⟩ := hend
  rw [← hb, fastPad_append_replicate b (ne_padByte_of_isSymbol hc) hp]

/-- The separators that the probe finds are what the content has beside its meaningful characters (R156). -/
theorem content_length (h : FastContent x z p) : (content x).length = meanCount x + fastSep (content x) := by
  rw [← meaningful_length]
  rcases h.form with hform | hform <;> rw [hform]
  · rw [fastSep_of_isMean (isMean_of_mem_meaningful x), Nat.add_zero]
  · rw [fastSep_wrap76 (isMean_of_mem_meaningful x), wrap76_length]

/-- The probe takes the content for what it is: with line breaks where it has some (R156). -/
theorem content_eq_by_fastSep (h : FastContent x z p) :
    content x = if 0 < fastSep (content x) then wrap76 (meaningful x) else meaningful x := by
  rcases h.form with hform | hform <;> rw [hform]
  · rw [fastSep_of_isMean (isMean_of_mem_meaningful x), if_neg (Nat.lt_irrefl 0)]
  · rw [fastSep_wrap76 (isMean_of_mem_meaningful x)]
    split
    · rfl
    · exact wrap76_of_short (by omega)

/-- The computed length is DECODE's (R136, R157). -/
theorem fastLen_eq (h : FastContent x z p) : fastLen (content x) = decodeLen x := by
  rw [fastLen, h.content_length, Nat.add_sub_cancel, h.fastPad_eq, decodeLen, h.padCount_eq]

/-- The bytes are DECODE's (R138, R139, R158, R159). -/
theorem fastText_eq (h : FastContent x z p) : fastText (content x) = decodeText x := by
  have hform := h.content_eq_by_fastSep
  have hgroups := h.groups
  have hlen : decodeLen x = (z.length + p) * 6 / 8 - p := by rw [decodeLen, h.meanCount_eq, h.padCount_eq]
  rw [h.chars] at hform
  rw [fastText_content (m := (z.length + p) / 4) hform h.padding (by omega) h.fastPad_eq (by rw [h.fastLen_eq]; omega),
    h.fastLen_eq, decodeText, h.chars]

end FastContent

/-- FastPre is R152 (a) or (b). -/
theorem fastPre_cases {x : List Byte} (h : fastPre x = true) : meaningful x = [] ∨ ∃ z p, FastContent x z p := by
  rcases eq_or_ne (meaningful x) [] with hnone | hsome
  · exact .inl hnone
  · exact .inr ((fastPre_iff_fastContent hsome).mp h)

/-- An input that meets FastPre passes both structural checks of DECODE (R160). -/
theorem checks_of_fastPre {x : List Byte} (h : fastPre x = true) : meanCount x % 4 = 0 ∧ padCount x ≤ 2 := by
  rcases fastPre_cases h with hnone | ⟨z, p, hx⟩
  · rw [← meanCount_meaningful, ← padCount_meaningful, hnone]
    decide
  · rw [hx.meanCount_eq, hx.padCount_eq]
    exact ⟨hx.groups, hx.padding⟩

/-- On FastPre the two decoders compute the same (R160). -/
theorem decodeFastOp_eq_decodeOp (outCap : Nat) {x : List Byte} (h : fastPre x = true) :
    decodeFastOp outCap x = decodeOp outCap x := by
  rcases fastPre_cases h with hnone | ⟨z, p, hx⟩
  · have hall : x.all isSep = true := List.all_eq_true.mpr ((meaningful_eq_nil_iff x).mp hnone)
    rw [decodeFastOp, if_pos hall, ← decodeOp_meaningful, hnone, decodeOp_nil]
  · have hmean : ¬ x.all isSep = true := fun hall =>
      hx.present ((meaningful_eq_nil_iff x).mpr (List.all_eq_true.mp hall))
    obtain ⟨hgroups, hpad⟩ := checks_of_fastPre h
    rw [decodeFastOp, if_neg hmean, h, decodeOp_valid outCap hgroups hpad, hx.fastLen_eq, hx.fastText_eq]
    rfl

/-- On FastPre the two decoders end in the same state (R160). -/
theorem exec_decodeFast_eq_exec_decode {s : State} (w w' : Bool) (h1 : 1 ≤ s.inLen.toNat)
    (hin : s.inLen.toNat ≤ s.params.inCap) (hpre : fastPre (s.inBytes s.inLen.toNat) = true) :
    exec (.decodeFast w false) s = exec (.decode w' false) s := by
  rw [exec_eq_evaluated, exec_eq_evaluated, State.evaluated_decodeFast w h1 hin, State.evaluated_decode w' hin,
    decodeFastOp_eq_decodeOp _ hpre]

/-- Settles O29: the structural checks pass, so only the last check answers. -/
theorem fastRefinesDecodeOnItsPrecondition : Obligations.FastRefinesDecodeOnItsPrecondition := by
  intro s w w' h1 hin hpre
  have hsame := exec_decodeFast_eq_exec_decode w w' h1 hin hpre
  obtain ⟨hgroups, hpad⟩ := checks_of_fastPre hpre
  have hdecode := exec_of_evaluated ((State.evaluated_decode w' hin).trans (decodeOp_valid _ hgroups hpad))
  refine ⟨hsame, _, hsame.trans hdecode, ?_⟩
  rcases fitted_cases s.params.outCap (decodeLen (s.inBytes s.inLen.toNat)) (decodeText (s.inBytes s.inLen.toNat)) with
    ⟨-, hlong⟩ | ⟨-, hfit⟩
  · rw [hlong]
    exact .inr rfl
  · rw [hfit]
    exact .inl rfl

/-- Settles O28: DECODE ends in the same state, and what that writes is known. -/
theorem fastDecodesItsPreconditionExactly : Obligations.FastDecodesItsPreconditionExactly := by
  intro s w n len x y hwf hn h1 hin hx hpre hy hlen hfit
  obtain ⟨hgroups, hpad⟩ := checks_of_fastPre hpre
  have hgroups : y.length % 4 = 0 := by rw [hy, length_filter_isMean, hgroups]
  have hdecode := decodeWritesTheBytes s w n len x y hwf hn h1 hin hx hy hgroups hpad hlen hfit
  subst hn hx
  rwa [exec_decodeFast_eq_exec_decode w w h1 hin hpre]

end Sys2Proof.Machine
end

section
/-! PROOFS. The statements of 60_exceptions.md: the order of the checks, the codes they give, what a completion leaves unchanged,
and the two steps of a command. -/

namespace Sys2Proof.Machine

/-! ## Every command completes (R170, R176) -/

/-- Settles O12: every command ends in a completion, and each completion clears BUSY and sets DONE. -/
theorem everyCommandCompletes : Obligations.EveryCommandCompletes := by
  intro i s
  obtain ⟨r, hexec⟩ := exec_eq_complete i s
  obtain ⟨-, -, -, -, -, -, -, -, hbusy, hdone⟩ := s.complete_frame r
  exact ⟨_, hexec, hbusy, hdone⟩

/-- The one state a command ends in is that of its evaluation (R176). -/
theorem State.eq_complete_of_exec {i : Instr} {s t : State} (h : exec i s = .next t) : t = s.complete (s.evaluated i) := by
  rw [exec_eq_evaluated] at h
  cases h
  rfl

/-! ## The checks of a command, in order (R172) -/

/-- The code with which a command answers absent input (R111, R132, R151). -/
def absentCode (i : Instr) : Code := if i.op = 0b01#2 then .base64StringEmpty else .inputDataEmpty

/-- What a command evaluates on OUT_CAP and a present, non-empty input that fits IN_CAP (R172 steps 5 to 8). The reserved command
answers before (R172 step 1). -/
def operation : Instr → Nat → List Byte → Completion
  | .encode w _ => encodeOp w
  | .decode _ _ => decodeOp
  | .decodeFast _ _ => decodeFastOp
  | .reserved _ _ => fun _ _ => .finish .unknownError 0 []

theorem State.evaluated_of_reserved (s : State) {i : Instr} (h : i.op = 0b11#2) :
    s.evaluated i = .finish .unknownError 0 [] := by
  cases i with
  | reserved w a => rfl
  | encode w a | decode w a | decodeFast w a => exact absurd h (by simp [Instr.op])

/-- The commands that are not reserved differ in the code of absent input and in their operation alone (R172). -/
theorem State.evaluated_eq_checked (s : State) {i : Instr} (h : i.op ≠ 0b11#2) :
    s.evaluated i = s.checked i.absent (absentCode i) (operation i) := by
  cases i with
  | reserved w a => exact absurd rfl h
  | encode w a | decode w a | decodeFast w a => rfl

/-- Everything the evaluation of a command can come to, by the first of the common checks that answers (R172 steps 1 to 4). -/
theorem State.evaluated_cases (s : State) (i : Instr) :
    (i.op = 0b11#2 ∧ s.evaluated i = .finish .unknownError 0 []) ∨
    (i.op ≠ 0b11#2 ∧ i.absent = true ∧ s.evaluated i = .finish (absentCode i) 0 []) ∨
    (i.op ≠ 0b11#2 ∧ i.absent = false ∧ s.params.inCap < s.inLen.toNat ∧ s.evaluated i = .finish .unknownError 0 []) ∨
    (i.op ≠ 0b11#2 ∧ i.absent = false ∧ s.inLen.toNat = 0 ∧ s.evaluated i = .finish .ok 0 []) ∨
    (i.op ≠ 0b11#2 ∧ i.absent = false ∧ 1 ≤ s.inLen.toNat ∧ s.inLen.toNat ≤ s.params.inCap ∧
      s.evaluated i = operation i s.params.outCap (s.inBytes s.inLen.toNat)) := by
  by_cases hop : i.op = 0b11#2
  · exact .inl ⟨hop, s.evaluated_of_reserved hop⟩
  · rw [s.evaluated_eq_checked hop]
    refine .inr ?_
    simpa only [ne_eq, hop, not_false_eq_true, true_and] using s.checked_cases i.absent (absentCode i) (operation i)

/-! ## The codes (R171, R173) -/

/-- The codes that a completion can record; the draw of R161 chooses between two. -/
def Completion.codes : Completion → List Code
  | .finish c _ _ => [c]
  | .draw => [.ok, .noMemory]

theorem State.complete_result_mem (s : State) (r : Completion) : (s.complete r).result ∈ r.codes := by
  cases r with
  | finish c n bs => exact List.mem_singleton.mpr rfl
  | draw =>
    rw [State.complete_draw]
    rcases s.finishDraw_cases with h | h <;> rw [h]
    · exact List.mem_cons_of_mem _ (List.mem_singleton.mpr rfl)
    · exact List.mem_cons_self

/-- The last check of every operation answers OK or NoMemory (R172 steps 7 and 8). -/
theorem fitted_codes (outCap len : Nat) (bs : List Byte) : (fitted outCap len bs).codes ⊆ [.ok, .noMemory] := by
  rcases fitted_cases outCap len bs with ⟨-, h⟩ | ⟨-, h⟩ <;> rw [h] <;> simp [Completion.codes]

theorem encodeOp_codes (w : Bool) (outCap : Nat) (x : List Byte) : (encodeOp w outCap x).codes ⊆ [.ok, .noMemory] :=
  fitted_codes _ _ _

theorem decodeOp_codes (outCap : Nat) (x : List Byte) :
    (decodeOp outCap x).codes ⊆ [.ok, .noMemory, .base64EncodingInvalid] := by
  by_cases hbad : meanCount x % 4 ≠ 0 ∨ 2 < padCount x
  · rw [decodeOp_invalid outCap hbad]
    simp [Completion.codes]
  · obtain ⟨hgroups, hpad⟩ := not_or.mp hbad
    rw [decodeOp_valid outCap (not_not.mp hgroups) (Nat.not_lt.mp hpad)]
    exact List.Subset.trans (fitted_codes _ _ _) (by decide)

/-- Without a meaningful character the trusting decoder has nothing to decode (R153). -/
theorem decodeFastOp_of_no_meaningful (outCap : Nat) {x : List Byte} (h : meaningful x = []) :
    decodeFastOp outCap x = .finish .ok 0 [] :=
  if_pos (List.all_eq_true.mpr ((meaningful_eq_nil_iff x).mp h))

/-- Under FastPre, with a meaningful character, only the length is left to check (R157). -/
theorem decodeFastOp_of_fastPre (outCap : Nat) {x : List Byte} (hmean : meaningful x ≠ []) (h : fastPre x = true) :
    decodeFastOp outCap x = fitted outCap (fastLen (content x)) (fastText (content x)) := by
  have hsep : ¬ x.all isSep = true := fun hall => hmean ((meaningful_eq_nil_iff x).mpr (List.all_eq_true.mp hall))
  rw [decodeFastOp, if_neg hsep, h]
  rfl

theorem decodeFastOp_codes (outCap : Nat) (x : List Byte) : (decodeFastOp outCap x).codes ⊆ [.ok, .noMemory] := by
  by_cases hmean : meaningful x = []
  · rw [decodeFastOp_of_no_meaningful outCap hmean]
    simp [Completion.codes]
  · cases hpre : fastPre x with
    | false => rw [decodeFastOp_of_not_fastPre outCap hpre]; exact List.Subset.refl _
    | true => rw [decodeFastOp_of_fastPre outCap hmean hpre]; exact fitted_codes _ _ _

/-- The common checks add three codes to those of the operation (R172 steps 2 to 4). -/
theorem State.checked_codes (s : State) (a : Bool) (c : Code) {op : Nat → List Byte → Completion} {codes : List Code}
    (hop : ∀ outCap x, (op outCap x).codes ⊆ codes) :
    (s.checked a c op).codes ⊆ .ok :: c :: .unknownError :: codes := by
  rcases s.checked_cases a c op with ⟨-, h⟩ | ⟨-, -, h⟩ | ⟨-, -, h⟩ | ⟨-, -, -, h⟩ <;> rw [h]
  case inr.inr.inr => exact fun _ hmem => by simp [hop _ _ hmem]
  all_goals simp [Completion.codes]

/-- A command records one of the codes that its evaluation can record. -/
theorem State.result_mem_of_exec {i : Instr} {s t : State} {codes : List Code} (h : exec i s = .next t)
    (hcodes : (s.evaluated i).codes ⊆ codes) : t.result ∈ codes :=
  State.eq_complete_of_exec h ▸ hcodes (s.complete_result_mem _)

/-- Settles O11: the codes of the common checks and those of each operation. -/
theorem codesEachCommandProduces : Obligations.CodesEachCommandProduces := by
  intro w a s t
  have hencode := s.checked_codes a .inputDataEmpty (encodeOp_codes w)
  have hdecode := s.checked_codes a .base64StringEmpty decodeOp_codes
  have hfast := s.checked_codes a .inputDataEmpty decodeFastOp_codes
  refine ⟨fun h => ?_, fun h => ?_, fun h => ?_, fun h => ?_⟩
  · simpa using State.result_mem_of_exec (codes := [.ok, .inputDataEmpty, .noMemory, .unknownError]) h
      (List.Subset.trans hencode (by decide))
  · simpa using State.result_mem_of_exec
      (codes := [.ok, .base64StringEmpty, .noMemory, .base64EncodingInvalid, .unknownError]) h
      (List.Subset.trans hdecode (by decide))
  · simpa using State.result_mem_of_exec (codes := [.ok, .inputDataEmpty, .noMemory, .unknownError]) h
      (List.Subset.trans hfast (by decide))
  · exact List.mem_singleton.mp (State.result_mem_of_exec h (List.Subset.refl _))

/-- No operation answers UnknownError; only the checks before it do (R173). -/
theorem unknownError_notMem_operation_codes {i : Instr} (h : i.op ≠ 0b11#2) (outCap : Nat) (x : List Byte) :
    .unknownError ∉ (operation i outCap x).codes := by
  cases i with
  | encode w a => exact fun hmem => absurd (encodeOp_codes w _ _ hmem) (by decide)
  | decode w a => exact fun hmem => absurd (decodeOp_codes _ _ hmem) (by decide)
  | decodeFast w a => exact fun hmem => absurd (decodeFastOp_codes _ _ hmem) (by decide)
  | reserved w a => exact absurd rfl h

theorem absentCode_ne_unknownError (i : Instr) : absentCode i ≠ .unknownError := by
  unfold absentCode
  split <;> decide

/-- In the two cases of R173 the checks answer UnknownError, and in no other can the evaluation record it. -/
theorem State.evaluated_unknownError_cases (s : State) (i : Instr) :
    ((i.op = 0b11#2 ∨ (i.absent = false ∧ s.params.inCap < s.inLen.toNat)) ∧
      s.evaluated i = .finish .unknownError 0 []) ∨
    (¬ (i.op = 0b11#2 ∨ (i.absent = false ∧ s.params.inCap < s.inLen.toNat)) ∧
      .unknownError ∉ (s.evaluated i).codes) := by
  rcases s.evaluated_cases i with ⟨hop, h⟩ | ⟨hop, ha, h⟩ | ⟨hop, ha, hlong, h⟩ | ⟨hop, ha, h0, h⟩ |
    ⟨hop, ha, h1, hin, h⟩
  · exact .inl ⟨.inl hop, h⟩
  · refine .inr ⟨by simp [hop, ha], ?_⟩
    rw [h]
    exact fun hmem => absentCode_ne_unknownError i (List.mem_singleton.mp hmem).symm
  · exact .inl ⟨.inr ⟨ha, hlong⟩, h⟩
  · refine .inr ⟨by simp [hop, h0], ?_⟩
    rw [h]
    decide
  · refine .inr ⟨by simp [hop, hin], ?_⟩
    rw [h]
    exact unknownError_notMem_operation_codes hop _ _

/-- Settles O9: the two cases are those in which the checks answer UnknownError. -/
theorem unknownErrorInExactlyTwoCases : Obligations.UnknownErrorInExactlyTwoCases := by
  refine ⟨fun i s t h => ?_, fun i s hcase => ?_⟩
  · obtain rfl := State.eq_complete_of_exec h
    rcases s.evaluated_unknownError_cases i with ⟨hcase, heval⟩ | ⟨hcase, hcodes⟩
    · rw [heval]
      exact iff_of_true rfl hcase
    · exact iff_of_false (fun hresult => hcodes (hresult ▸ s.complete_result_mem _)) hcase
  · rcases s.evaluated_unknownError_cases i with ⟨-, heval⟩ | ⟨hnot, -⟩
    · exact exec_of_evaluated_empty heval
    · exact absurd hcase hnot

/-! ## The code that the order decides (R172, R174) -/

/-- The last check compares the required length with OUT_CAP (R174). -/
theorem State.complete_fitted_result (s : State) (outCap len : Nat) (bs : List Byte) :
    if outCap < len then (s.complete (fitted outCap len bs)).result = .noMemory
    else (s.complete (fitted outCap len bs)).result = .ok := by
  split
  · next hlong => rw [fitted_of_lt hlong]; rfl
  · next hfit => rw [fitted_of_le (Nat.not_lt.mp hfit)]; rfl

/-- ENCODE's own check: the length (R172 steps 7 and 8). -/
theorem State.complete_encodeOp_result (s : State) (w a : Bool) (outCap : Nat) (x : List Byte) :
    if outCap < requiredLen (.encode w a) x then (s.complete (encodeOp w outCap x)).result = .noMemory
    else (s.complete (encodeOp w outCap x)).result = .ok := s.complete_fitted_result _ _ _

/-- DECODE's own checks, in their order: the structure, then the length (R172 steps 5, 7 and 8). -/
theorem State.complete_decodeOp_result (s : State) (w a : Bool) (outCap : Nat) (x : List Byte) :
    if (x.filter isMean).length % 4 ≠ 0 then (s.complete (decodeOp outCap x)).result = .base64EncodingInvalid
    else if 2 < padCount x then (s.complete (decodeOp outCap x)).result = .base64EncodingInvalid
    else if outCap < requiredLen (.decode w a) x then (s.complete (decodeOp outCap x)).result = .noMemory
    else (s.complete (decodeOp outCap x)).result = .ok := by
  rw [length_filter_isMean]
  by_cases hgroups : meanCount x % 4 ≠ 0
  · rw [if_pos hgroups, decodeOp_invalid outCap (.inl hgroups)]
    rfl
  · by_cases hpad : 2 < padCount x
    · rw [if_neg hgroups, if_pos hpad, decodeOp_invalid outCap (.inr hpad)]
      rfl
    · rw [if_neg hgroups, if_neg hpad, decodeOp_valid outCap (not_not.mp hgroups) (Nat.not_lt.mp hpad)]
      exact s.complete_fitted_result _ _ _

/-- The code of the draw is OK or NoMemory (R161). -/
theorem State.finishDraw_result (s : State) : s.finishDraw.result = .ok ∨ s.finishDraw.result = .noMemory := by
  simpa [Completion.codes] using s.complete_result_mem .draw

/-- DECODE_FAST's own checks, in their order: a meaningful character, the draw outside FastPre, then the length (R172 steps 6
to 8). -/
theorem State.complete_decodeFastOp_result (s : State) (w a : Bool) (outCap : Nat) (x : List Byte) :
    if x.filter isMean = [] then
      (s.complete (decodeFastOp outCap x)).result = .ok ∧ (s.complete (decodeFastOp outCap x)).outLen = 0
    else if fastPre x = false then
      (s.complete (decodeFastOp outCap x)).result = .ok ∨ (s.complete (decodeFastOp outCap x)).result = .noMemory
    else if outCap < requiredLen (.decodeFast w a) x then (s.complete (decodeFastOp outCap x)).result = .noMemory
    else (s.complete (decodeFastOp outCap x)).result = .ok := by
  by_cases hmean : x.filter isMean = []
  · rw [if_pos hmean, decodeFastOp_of_no_meaningful outCap hmean]
    exact ⟨rfl, rfl⟩
  · rw [if_neg hmean]
    cases hpre : fastPre x with
    | false =>
      rw [if_pos rfl, decodeFastOp_of_not_fastPre outCap hpre]
      exact s.finishDraw_result
    | true =>
      rw [if_neg (by simp), decodeFastOp_of_fastPre outCap hmean hpre]
      exact s.complete_fitted_result _ _ _

/-- Settles O10: the common checks answer in their order, and each operation goes on in its own. -/
theorem checkOrderDecidesTheCode : Obligations.CheckOrderDecidesTheCode := by
  intro i s t n x hn hx h
  obtain rfl := State.eq_complete_of_exec h
  subst hn
  rcases s.evaluated_cases i with ⟨hop, heval⟩ | ⟨hop, ha, heval⟩ | ⟨hop, ha, hlong, heval⟩ |
    ⟨hop, ha, h0, heval⟩ | ⟨hop, ha, h1, hin, heval⟩ <;> rw [heval]
  · rw [if_pos hop]
    rfl
  · rw [if_neg hop, if_pos ha]
    rfl
  · rw [if_neg hop, if_neg (by simp [ha]), if_pos hlong]
    rfl
  · rw [if_neg hop, if_neg (by simp [ha]), if_neg (by omega), if_pos h0]
    exact ⟨rfl, rfl⟩
  · rw [if_neg hop, if_neg (by simp [ha]), if_neg (by omega), if_neg (by omega), ← hx]
    cases i with
    | encode w a => simpa [Instr.op, operation] using s.complete_encodeOp_result w a s.params.outCap x
    | decode w a => simpa [Instr.op, operation] using s.complete_decodeOp_result w a s.params.outCap x
    | decodeFast w a =>
      simpa [Instr.op, operation, -List.filter_eq_nil_iff] using s.complete_decodeFastOp_result w a s.params.outCap x
    | reserved w a => exact absurd rfl hop

/-! ## What a completion leaves unchanged (R177) -/

/-- A completion that records an error has no output (R177). -/
theorem State.complete_error {s : State} {r : Completion} (h : (s.complete r).result ≠ .ok) :
    (s.complete r).outLen = 0 ∧ (s.complete r).outBuf = s.outBuf := by
  cases r with
  | finish c n bs => exact ⟨if_neg h, if_neg h⟩
  | draw =>
    rw [State.complete_draw] at h ⊢
    rcases s.finishDraw_cases with hdraw | hdraw <;> rw [hdraw] at h ⊢
    · exact ⟨rfl, rfl⟩
    · exact absurd rfl h

/-- A completion that is no draw changes no byte at or beyond the output length it leaves (R68, R177). -/
theorem State.complete_beyond {s : State} {r : Completion} {outCap : Nat} (hdet : r.Determined) (hfits : r.Fits outCap)
    (hcap : outCap ≤ 65536) {a : Nat} (ha : (s.complete r).outLen.toNat ≤ a) : (s.complete r).outByte a = s.outByte a := by
  cases r with
  | draw => exact hdet.elim
  | finish c n bs =>
    have hn : n ≤ outCap := hfits
    refine (s.finish_outByte c n a bs).trans (if_neg fun ⟨hok, hwritten⟩ => ?_)
    subst hok
    have hlen : (s.finish .ok n bs).outLen.toNat = n := Nat.mod_eq_of_lt (by omega)
    rw [State.complete_finish, hlen] at ha
    rw [List.length_take] at hwritten
    omega

/-- No evaluation gives more output than OUT_CAP (R174). -/
theorem State.evaluated_fits (s : State) (i : Instr) : (s.evaluated i).Fits s.params.outCap := by
  cases i with
  | encode w a => exact s.checked_fits a _ fun _ _ => fitted_fits _ _ _
  | decode w a => exact s.checked_fits a _ decodeOp_fits
  | decodeFast w a => exact s.checked_fits a _ decodeFastOp_fits
  | reserved w a => exact Nat.zero_le _

/-- Settles O13: the frame of every completion, that of one with an error, and that of one that is no draw. -/
theorem completionFrame : Obligations.CompletionFrame := by
  intro i s t hwf h
  obtain rfl := State.eq_complete_of_exec h
  obtain ⟨-, -, -, hcap⟩ := (Params.wf_iff s.params).mp hwf
  obtain ⟨hparams, hign, hinLen, hcur, hinBuf, hrst, hlatencies, hhost, -, -⟩ := s.complete_frame (s.evaluated i)
  refine ⟨hparams, hign, hinLen, hcur, hinBuf, hrst, hlatencies, hhost, fun herror => ?_, fun hdrawn a ha => ?_⟩
  · obtain ⟨hlen, hbuf⟩ := State.complete_error herror
    exact ⟨hlen, fun a => congrArg (Buffer.read · a) hbuf⟩
  · exact State.complete_beyond (State.evaluated_determined hdrawn) (s.evaluated_fits i) hcap ha

/-! ## The two steps of a command (R175, R176) -/

/-- Settles O36: the store is an idle CMD write, so it starts the command, and the rest of the step is the host's own. -/
theorem cmdWriteStartsACommand : Obligations.CmdWriteStartsACommand := by
  intro s v w hidle hr hw
  subst hw
  refine ⟨_, State.hostStep_store_eq hr .word 0x000 v, ?_⟩
  rw [State.busWrite_cmd_idle _ hidle]
  exact ⟨rfl, rfl, rfl, rfl, rfl, rfl, rfl, rfl, rfl, rfl, rfl⟩

/-- The engine moves while BUSY = 1 once no host step falls before the completion any more (R176, log 5). -/
theorem State.mover_engine {s : State} (hb : s.busy = true) (h : s.slack = 0 ∨ s.host.nextOp = none) :
    s.mover = .engine := by
  unfold State.mover
  split
  · exact if_pos hb
  · next op hop =>
    have hslack : s.slack = 0 := h.resolve_right (by simp [hop])
    simp [hb, hslack]

/-- Once no host step falls before the completion any more, the step is that of the command in CUR (R176). -/
theorem step_eq_exec {s : State} (hb : s.busy = true) (h : s.slack = 0 ∨ s.host.nextOp = none) :
    step s = exec s.cur.instr s := by
  rw [step, State.mover_engine hb h]

/-- A word of 32 bits is placed as it is (log 4). -/
theorem State.withFetchWord_instr (s : State) {w : Nat} (h : w < 2 ^ 32) :
    (s.withFetchWord 32 w).cur.instr = decodeWord (BitVec.ofNat 32 w) := by
  rw [State.withFetchWord_cur, Nat.mod_eq_of_lt h]
  rfl

/-- Settles O48: the engine's turn is `exec` of CUR's command, and CUR is latched from the fields that the decoder reads. -/
theorem stepRunsTheLatchedCommand : Obligations.StepRunsTheLatchedCommand := by
  refine ⟨fun s hb h => step_eq_exec hb h, State.start_instr, fun s w hw => ?_, fun s => State.mover_ne_engine⟩
  rw [step_eq_exec (s.withFetchWord_busy 32 w) (.inl (s.withFetchWord_slack 32 w)), s.withFetchWord_instr hw]

end Sys2Proof.Machine
end

section
/-! PROOFS. The statements of 70_reset_and_hazards.md: what reset leaves, what it refuses, and that a running command completes. -/

namespace Sys2Proof.Machine

/-! ## Reset (R190 to R192) -/

/-- A change of the reset input at either level resets the block after the host's turn (R190). -/
theorem State.hostStep_reset (s : State) (l : Bool) :
    s.hostStep (if l then .assertReset else .releaseReset) = .next (s.hostTurn.resetBlock l) := by
  cases l <;> rfl

/-- Settles O49: either step ends in `resetBlock`, whose fields the state's laws give. -/
theorem resetLeavesTheResetState : Obligations.ResetLeavesTheResetState :=
  ⟨fun s l => ⟨_, s.hostStep_reset l, rfl, rfl, rfl, rfl, rfl, rfl, rfl, rfl⟩,
    fun _ => ⟨rfl, rfl, rfl, rfl, rfl, rfl, rfl⟩, rfl⟩

/-- Settles O50: each of the three transactions asks the reset input first. -/
theorem transactionsDuringResetAreRefused : Obligations.TransactionsDuringResetAreRefused :=
  fun _ _ _ _ _ hr => ⟨if_pos hr, if_pos hr, fun _ => if_pos hr⟩

/-- A block with legal capacities meets the invariant right after reset (R190). -/
theorem State.resetWith_inv {p : Params} (hp : p.wf = true) : (State.resetWith p).Inv where
  params := hp
  busyNotDone := fun _ => rfl
  outLenFits := Nat.zero_le _
  errorEmpty := fun _ => rfl
  untouched := fun _ _ => ⟨rfl, rfl⟩
  inReset := fun _ => ⟨rfl, rfl, rfl, rfl⟩
  inBufOk := Buffer.ok_empty Nat.zero_lt_two
  outBufOk := Buffer.ok_empty Nat.one_lt_two
  varsOk := List.Pairwise.nil

/-- Settles O54: from the first reset of a legal block, and from every later one. -/
theorem invariantHoldsAfterReset : Obligations.InvariantHoldsAfterReset :=
  ⟨State.resetWith_inv (by decide), fun _ hp => State.resetWith_inv hp, fun _ l h => h.resetBlock l⟩

/-! ## Progress (R201) -/

/-- No host write reaches the reset input. -/
theorem State.busWrite_rst (s : State) (off : Offset) (n : Width) (v : Word) : (s.busWrite off n v).rst = s.rst := by
  rcases s.busWrite_cases off n v with h | ⟨-, h⟩ | ⟨-, -, -, h⟩ | ⟨-, -, h⟩ | ⟨-, h⟩ | ⟨-, i, bs, -, h⟩ <;> rw [h] <;> simp

/-- While a command runs out of reset, the host is refused no step, and every one but a change of the reset input counts `slack` down
(R192, log 5). -/
theorem State.hostStep_slack_of_busy {s : State} {op : HostOp} (hb : s.busy = true) (hr : s.rst = false)
    (hassert : op ≠ .assertReset) (hrelease : op ≠ .releaseReset) :
    ∃ t, s.hostStep op = .next t ∧ t.slack = s.slack - 1 ∧ t.rst = false := by
  cases op with
  | store n off v =>
    exact ⟨_, State.hostStep_store_eq hr n off v, if_neg (by simp [hb]), (s.busWrite_rst off n _).trans hr⟩
  | load n off r => exact ⟨_, State.hostStep_load hr n off r, rfl, (s.afterRead_rst off n).trans hr⟩
  | bnz r m l => exact ⟨_, s.hostStep_bnz r m l, rfl, hr⟩
  | readOut len o => exact ⟨_, State.hostStep_readOut hr len o, rfl, hr⟩
  | assertReset => exact absurd rfl hassert
  | releaseReset => exact absurd rfl hrelease

/-- While BUSY = 1 the block does not idle: the engine moves or the host does (R176, R180). -/
theorem State.mover_of_busy {s : State} (hb : s.busy = true) : s.mover = .engine ∨ ∃ op, s.mover = .host op := by
  cases hn : s.host.nextOp with
  | none => exact .inl (State.mover_engine hb (.inr hn))
  | some op =>
    by_cases hslack : s.slack = 0
    · exact .inl (State.mover_engine hb (.inl hslack))
    · exact .inr ⟨op, by simp [State.mover, hn, hslack]⟩

/-- The engine's move completes the running command (R176). -/
theorem step_completes_of_engine {s : State} (hm : s.mover = .engine) :
    ∃ t, step s = .next t ∧ t.busy = false ∧ t.done = true := by
  obtain ⟨r, hstep⟩ := step_engine hm
  obtain ⟨-, -, -, -, -, -, -, -, hbusy, hdone⟩ := s.complete_frame r
  exact ⟨_, hstep, hbusy, hdone⟩

/-- Any other step but a reset leaves the command running on the same input, with one host step less before its completion
(R60, log 5). -/
theorem step_waits {s : State} {op : HostOp} (hb : s.busy = true) (hr : s.rst = false) (hm : s.mover = .host op)
    (hassert : op ≠ .assertReset) (hrelease : op ≠ .releaseReset) :
    ∃ t, step s = .next t ∧ t.slack = s.slack - 1 ∧ t.rst = false ∧ t.busy = true ∧
      t.cur = s.cur ∧ t.inLen = s.inLen ∧ t.inBuf = s.inBuf := by
  obtain ⟨t, hhost, hslack, hrst⟩ := State.hostStep_slack_of_busy hb hr hassert hrelease
  have hstep : step s = .next t := (step_host hm).trans hhost
  obtain ⟨hcur, hinLen, hinBuf, hbusy⟩ := inputIsStableWhileBusy s t hstep hb (by simp [hm, hassert]) (by simp [hm, hrelease])
  exact ⟨t, hstep, hslack, hrst, hbusy.resolve_right (by simp [hm]), hcur, hinLen, hinBuf⟩

/-- Settles O53, by induction on `slack`: each host step that is no reset counts it down and keeps the command and its input. -/
theorem startedCommandsComplete : Obligations.StartedCommandsComplete := by
  intro s hb hr
  induction hn : s.slack generalizing s with
  | zero =>
    have hm : s.mover = .engine := State.mover_engine hb (.inl hn)
    exact ⟨0, s, Nat.le_refl 0, rfl, .inl ⟨hm, rfl, rfl, rfl, step_completes_of_engine hm⟩⟩
  | succ n ih =>
    rcases State.mover_of_busy hb with hm | ⟨op, hm⟩
    · exact ⟨0, s, Nat.zero_le _, rfl, .inl ⟨hm, rfl, rfl, rfl, step_completes_of_engine hm⟩⟩
    · by_cases hreset : op = .assertReset ∨ op = .releaseReset
      · exact ⟨0, s, Nat.zero_le _, rfl, .inr (hreset.imp (hm.trans <| congrArg _ ·) (hm.trans <| congrArg _ ·))⟩
      · obtain ⟨hassert, hrelease⟩ := not_or.mp hreset
        obtain ⟨t, hstep, hslack, hrst, hbusy, hcur, hinLen, hinBuf⟩ := step_waits hb hr hm hassert hrelease
        obtain ⟨k, u, hk, hrun, hend⟩ := ih t hbusy hrst (by omega)
        rw [hcur, hinLen, hinBuf] at hend
        exact ⟨k + 1, u, Nat.succ_le_succ hk, (core_run_succ hstep).trans hrun, hend⟩

end Sys2Proof.Machine
end
